-- ==== Sys2Proof/Word.lean ====
section
/-!
DEFINITION. The block's value types (spec/00_scope.md R8): bytes, 16-bit words, register, key and grid indices.
-/

namespace Sys2Proof

/-- An 8-bit unsigned value: a general register, a timer, a byte of memory (R30, R38, R43). -/
abbrev Byte := BitVec 8

/-- A 16-bit unsigned value: `pc`, `I`, a stack entry, an instruction word (R34, R37, R40, R90). -/
abbrev Word := BitVec 16

/-- A general register's index, always a 4-bit field, so every index is legal (R30). -/
abbrev Reg := Fin 16

/-- `VF`, the register that doubles as the flag register (R31). -/
abbrev VF : Reg := 15

/-- The grid of single-bit pixels `FB[x][y]`, column first: 64 columns of 32 rows (R46). -/
abbrev Framebuffer := Vector (Vector Bool 32) 64

/-- A flag value of 0 or 1 as the byte written to VF. -/
abbrev bit01 (b : Bool) : Byte := if b then 1 else 0

end Sys2Proof
end

