-- ==== Sys2Proof/Syntax.lean ====
section
/-!
DEFINITION. The instructions: one constructor for each of the 34 rows of spec/opcode_table.json (R95).
Only the operands an instruction uses are kept: the low nibble of 5XYN and 9XYN (R97) and the y nibble of 8XY6 and 8XYE
(R98) are ignored by the block and are no operands (log 11).
-/

namespace Sys2Proof

/-- The instruction classes of R95, in the table's order. -/
inductive Instr where
  /-- 00E0 CLS (R215) -/
  | cls
  /-- 00EE RET (R140) -/
  | ret
  /-- 1NNN JP nnn (R141) -/
  | jp (nnn : BitVec 12)
  /-- 2NNN CALL nnn (R142) -/
  | call (nnn : BitVec 12)
  /-- 3XNN SE Vx, kk (R143) -/
  | seImm (x : Reg) (kk : Byte)
  /-- 4XNN SNE Vx, kk (R144) -/
  | sneImm (x : Reg) (kk : Byte)
  /-- 5XYN SE Vx, Vy (R145) -/
  | seReg (x y : Reg)
  /-- 6XNN LD Vx, kk (R160) -/
  | ldImm (x : Reg) (kk : Byte)
  /-- 7XNN ADD Vx, kk (R161) -/
  | addImm (x : Reg) (kk : Byte)
  /-- 8XY0 LD Vx, Vy (R162) -/
  | ldReg (x y : Reg)
  /-- 8XY1 OR Vx, Vy (R163) -/
  | orReg (x y : Reg)
  /-- 8XY2 AND Vx, Vy (R164) -/
  | andReg (x y : Reg)
  /-- 8XY3 XOR Vx, Vy (R165) -/
  | xorReg (x y : Reg)
  /-- 8XY4 ADD Vx, Vy (R166) -/
  | addReg (x y : Reg)
  /-- 8XY5 SUB Vx, Vy (R167) -/
  | subReg (x y : Reg)
  /-- 8XY6 SHR Vx (R168) -/
  | shr (x : Reg)
  /-- 8XY7 SUBN Vx, Vy (R169) -/
  | subn (x y : Reg)
  /-- 8XYE SHL Vx (R170) -/
  | shl (x : Reg)
  /-- 9XYN SNE Vx, Vy (R146) -/
  | sneReg (x y : Reg)
  /-- ANNN LD I, nnn (R190) -/
  | ldI (nnn : BitVec 12)
  /-- BNNN JP V0, nnn (R147) -/
  | jpV0 (nnn : BitVec 12)
  /-- CXNN RND Vx, kk (R175) -/
  | rnd (x : Reg) (kk : Byte)
  /-- DXYN DRW Vx, Vy, n (R214); `n` is the row count, 0..15 in a well-formed instruction -/
  | drw (x y : Reg) (n : Nat)
  /-- EX9E SKP Vx (R240) -/
  | skp (x : Reg)
  /-- EXA1 SKNP Vx (R241) -/
  | sknp (x : Reg)
  /-- FX07 LD Vx, DT (R248) -/
  | ldVxDT (x : Reg)
  /-- FX0A LD Vx, K (R249) -/
  | ldVxK (x : Reg)
  /-- FX15 LD DT, Vx (R250) -/
  | ldDT (x : Reg)
  /-- FX18 LD ST, Vx (R251) -/
  | ldST (x : Reg)
  /-- FX1E ADD I, Vx (R192) -/
  | addI (x : Reg)
  /-- FX29 LD F, Vx (R193) -/
  | ldF (x : Reg)
  /-- FX33 LD B, Vx (R194) -/
  | ldB (x : Reg)
  /-- FX55 LD [I], Vx (R195) -/
  | storeRegs (x : Reg)
  /-- FX65 LD Vx, [I] (R196) -/
  | loadRegs (x : Reg)
  deriving DecidableEq, Repr

end Sys2Proof
end

