-- ==== Sys2Proof/Decode.lean ====
section
/-!
DEFINITION. The instruction decoder of spec/30_encoding.md (R90-R99), total on every word and every byte list, rejecting by
name; after it the encoder and the opcode map of R95 as data.
-/

namespace Sys2Proof

/-! ## The fields of a word (R13) -/

/-- `op[15:12]`, the family. -/
def opFamily (op : Word) : Nat := (op.extractLsb' 12 4).toNat

/-- `x = op[11:8]`. -/
def opX (op : Word) : Reg := ⟨(op.extractLsb' 8 4).toNat, (op.extractLsb' 8 4).isLt⟩

/-- `y = op[7:4]`. -/
def opY (op : Word) : Reg := ⟨(op.extractLsb' 4 4).toNat, (op.extractLsb' 4 4).isLt⟩

/-- `n = op[3:0]`. -/
def opN (op : Word) : Nat := (op.extractLsb' 0 4).toNat

/-- `kk = op[7:0]`. -/
def opKK (op : Word) : Byte := op.extractLsb' 0 8

/-- `nnn = op[11:0]`. -/
def opNNN (op : Word) : BitVec 12 := op.extractLsb' 0 12

/-! ## Decoding -/

/-- Why bytes decode to no instruction. -/
inductive DecodeError where
  /-- The word selects no row of R95; it carries the raw word (R96). -/
  | unknownOpcode (op : Word)
  /-- Fewer than the two bytes of an instruction (R90). -/
  | truncated
  deriving DecidableEq, Repr

/-- Family 0: the whole word is compared (R93, D8). -/
def decodeFamily0 (op : Word) : Except DecodeError Instr :=
  if op = 0x00E0 then .ok .cls
  else if op = 0x00EE then .ok .ret
  else .error (.unknownOpcode op)

/-- Family 8: dispatch on the low nibble (R93). -/
def decodeFamily8 (op : Word) : Except DecodeError Instr :=
  match opN op with
  | 0x0 => .ok (.ldReg (opX op) (opY op))
  | 0x1 => .ok (.orReg (opX op) (opY op))
  | 0x2 => .ok (.andReg (opX op) (opY op))
  | 0x3 => .ok (.xorReg (opX op) (opY op))
  | 0x4 => .ok (.addReg (opX op) (opY op))
  | 0x5 => .ok (.subReg (opX op) (opY op))
  | 0x6 => .ok (.shr (opX op))
  | 0x7 => .ok (.subn (opX op) (opY op))
  | 0xE => .ok (.shl (opX op))
  | _ => .error (.unknownOpcode op)

/-- Family E: dispatch on the low byte (R93). -/
def decodeFamilyE (op : Word) : Except DecodeError Instr :=
  match (opKK op).toNat with
  | 0x9E => .ok (.skp (opX op))
  | 0xA1 => .ok (.sknp (opX op))
  | _ => .error (.unknownOpcode op)

/-- Family F: dispatch on the low byte (R93). -/
def decodeFamilyF (op : Word) : Except DecodeError Instr :=
  match (opKK op).toNat with
  | 0x07 => .ok (.ldVxDT (opX op))
  | 0x0A => .ok (.ldVxK (opX op))
  | 0x15 => .ok (.ldDT (opX op))
  | 0x18 => .ok (.ldST (opX op))
  | 0x1E => .ok (.addI (opX op))
  | 0x29 => .ok (.ldF (opX op))
  | 0x33 => .ok (.ldB (opX op))
  | 0x55 => .ok (.storeRegs (opX op))
  | 0x65 => .ok (.loadRegs (opX op))
  | _ => .error (.unknownOpcode op)

/-- The decoder: dispatch by the high nibble, each family an isolated branch (R93, R94). -/
def decodeWord (op : Word) : Except DecodeError Instr :=
  match opFamily op with
  | 0x0 => decodeFamily0 op
  | 0x1 => .ok (.jp (opNNN op))
  | 0x2 => .ok (.call (opNNN op))
  | 0x3 => .ok (.seImm (opX op) (opKK op))
  | 0x4 => .ok (.sneImm (opX op) (opKK op))
  | 0x5 => .ok (.seReg (opX op) (opY op))
  | 0x6 => .ok (.ldImm (opX op) (opKK op))
  | 0x7 => .ok (.addImm (opX op) (opKK op))
  | 0x8 => decodeFamily8 op
  | 0x9 => .ok (.sneReg (opX op) (opY op))
  | 0xA => .ok (.ldI (opNNN op))
  | 0xB => .ok (.jpV0 (opNNN op))
  | 0xC => .ok (.rnd (opX op) (opKK op))
  | 0xD => .ok (.drw (opX op) (opY op) (opN op))
  | 0xE => decodeFamilyE op
  | 0xF => decodeFamilyF op
  | _ => .error (.unknownOpcode op)

/-- Two bytes as the big-endian word they hold (R61). -/
def wordOfBytes (hi lo : Byte) : Word := BitVec.ofNat 16 (hi.toNat * 256 + lo.toNat)

/-- The high byte of a word, stored first (R61, R65). -/
def highByte (w : Word) : Byte := w.extractLsb' 8 8

/-- The low byte of a word, stored second (R61, R65). -/
def lowByte (w : Word) : Byte := w.extractLsb' 0 8

/-- Decode the instruction at the head of a byte list; answers it and the bytes after it (R90). -/
def decode : List Byte → Except DecodeError (Instr × List Byte)
  | hi :: lo :: rest =>
    match decodeWord (wordOfBytes hi lo) with
    | .ok i => .ok (i, rest)
    | .error e => .error e
  | _ => .error .truncated

/-- The instruction the decoder reads from an instruction whose bits are `w`, numbered as spec/opcode_table.json numbers
them; every row is one 16-bit word, laid out high byte first. -/
def decodeTableWord (nbits w : Nat) : Option Instr :=
  let op : Word := BitVec.ofNat 16 (w % 2 ^ nbits)
  match decode [highByte op, lowByte op] with
  | .ok (i, _) => some i
  | .error _ => none

/-! ## Encoding -/

/-- A 4-bit field that holds a register index. -/
def regField (x : Reg) : BitVec 4 := BitVec.ofNat 4 x.val

/-- Format A: family, 12-bit address (R91). -/
def formatA (f : BitVec 4) (nnn : BitVec 12) : Word := f ++ nnn

/-- Formats XK and XF: family, register, byte (R91). -/
def formatXK (f : BitVec 4) (x : Reg) (kk : Byte) : Word := (f ++ regField x : BitVec 8) ++ kk

/-- Formats XY, XYF and XYN: family, two registers, nibble (R91). -/
def formatXY (f : BitVec 4) (x y : Reg) (n : BitVec 4) : Word := (f ++ regField x : BitVec 8) ++ (regField y ++ n : BitVec 8)

/-- The word of an instruction. Ignored bits (R97, R98) are written as 0. -/
def encode : Instr → Word
  | .cls => 0x00E0
  | .ret => 0x00EE
  | .jp nnn => formatA 0x1 nnn
  | .call nnn => formatA 0x2 nnn
  | .seImm x kk => formatXK 0x3 x kk
  | .sneImm x kk => formatXK 0x4 x kk
  | .seReg x y => formatXY 0x5 x y 0
  | .ldImm x kk => formatXK 0x6 x kk
  | .addImm x kk => formatXK 0x7 x kk
  | .ldReg x y => formatXY 0x8 x y 0x0
  | .orReg x y => formatXY 0x8 x y 0x1
  | .andReg x y => formatXY 0x8 x y 0x2
  | .xorReg x y => formatXY 0x8 x y 0x3
  | .addReg x y => formatXY 0x8 x y 0x4
  | .subReg x y => formatXY 0x8 x y 0x5
  | .shr x => formatXY 0x8 x 0 0x6
  | .subn x y => formatXY 0x8 x y 0x7
  | .shl x => formatXY 0x8 x 0 0xE
  | .sneReg x y => formatXY 0x9 x y 0
  | .ldI nnn => formatA 0xA nnn
  | .jpV0 nnn => formatA 0xB nnn
  | .rnd x kk => formatXK 0xC x kk
  | .drw x y n => formatXY 0xD x y (BitVec.ofNat 4 n)
  | .skp x => formatXK 0xE x 0x9E
  | .sknp x => formatXK 0xE x 0xA1
  | .ldVxDT x => formatXK 0xF x 0x07
  | .ldVxK x => formatXK 0xF x 0x0A
  | .ldDT x => formatXK 0xF x 0x15
  | .ldST x => formatXK 0xF x 0x18
  | .addI x => formatXK 0xF x 0x1E
  | .ldF x => formatXK 0xF x 0x29
  | .ldB x => formatXK 0xF x 0x33
  | .storeRegs x => formatXK 0xF x 0x55
  | .loadRegs x => formatXK 0xF x 0x65

/-- The bytes of an instruction, in the order the memory holds them. -/
def encodeBytes (i : Instr) : List Byte := [highByte (encode i), lowByte (encode i)]

/-- The bits of a word its instruction does not look at: the low nibble of 5XYN and 9XYN (R97), the y nibble of 8XY6 and
8XYE (R98). -/
def ignoredBits : Instr → Word
  | .seReg _ _ | .sneReg _ _ => 0x000F
  | .shr _ | .shl _ => 0x00F0
  | .cls | .ret | .jp _ | .call _ | .seImm _ _ | .sneImm _ _ | .ldImm _ _ | .addImm _ _ | .ldReg _ _
  | .orReg _ _ | .andReg _ _ | .xorReg _ _ | .addReg _ _ | .subReg _ _ | .subn _ _
  | .ldI _ | .jpV0 _ | .rnd _ _ | .drw _ _ _ | .skp _ | .sknp _ | .ldVxDT _ | .ldVxK _ | .ldDT _ | .ldST _ | .addI _
  | .ldF _ | .ldB _ | .storeRegs _ | .loadRegs _ => 0

/-! ## The opcode map as data (R95) -/

/-- One row of R95: a word `op` selects it when `op AND mask = match`. -/
structure OpcodeRow where
  bits     : Word
  mask     : Word
  mnemonic : String
  deriving DecidableEq, Repr

/-- A word selects a row (R95). -/
def OpcodeRow.selects (r : OpcodeRow) (op : Word) : Bool := op &&& r.mask == r.bits

/-- The row of R95 an instruction belongs to. -/
def rowOf : Instr → OpcodeRow
  | .cls => ⟨0x00E0, 0xFFFF, "CLS"⟩
  | .ret => ⟨0x00EE, 0xFFFF, "RET"⟩
  | .jp _ => ⟨0x1000, 0xF000, "JP_nnn"⟩
  | .call _ => ⟨0x2000, 0xF000, "CALL_nnn"⟩
  | .seImm _ _ => ⟨0x3000, 0xF000, "SE_Vx__kk"⟩
  | .sneImm _ _ => ⟨0x4000, 0xF000, "SNE_Vx__kk"⟩
  | .seReg _ _ => ⟨0x5000, 0xF000, "SE_Vx__Vy"⟩
  | .ldImm _ _ => ⟨0x6000, 0xF000, "LD_Vx__kk"⟩
  | .addImm _ _ => ⟨0x7000, 0xF000, "ADD_Vx__kk"⟩
  | .ldReg _ _ => ⟨0x8000, 0xF00F, "LD_Vx__Vy"⟩
  | .orReg _ _ => ⟨0x8001, 0xF00F, "OR_Vx__Vy"⟩
  | .andReg _ _ => ⟨0x8002, 0xF00F, "AND_Vx__Vy"⟩
  | .xorReg _ _ => ⟨0x8003, 0xF00F, "XOR_Vx__Vy"⟩
  | .addReg _ _ => ⟨0x8004, 0xF00F, "ADD_Vx__Vy"⟩
  | .subReg _ _ => ⟨0x8005, 0xF00F, "SUB_Vx__Vy"⟩
  | .shr _ => ⟨0x8006, 0xF00F, "SHR_Vx"⟩
  | .subn _ _ => ⟨0x8007, 0xF00F, "SUBN_Vx__Vy"⟩
  | .shl _ => ⟨0x800E, 0xF00F, "SHL_Vx"⟩
  | .sneReg _ _ => ⟨0x9000, 0xF000, "SNE_Vx__Vy"⟩
  | .ldI _ => ⟨0xA000, 0xF000, "LD_I__nnn"⟩
  | .jpV0 _ => ⟨0xB000, 0xF000, "JP_V0__nnn"⟩
  | .rnd _ _ => ⟨0xC000, 0xF000, "RND_Vx__kk"⟩
  | .drw _ _ _ => ⟨0xD000, 0xF000, "DRW_Vx__Vy__n"⟩
  | .skp _ => ⟨0xE09E, 0xF0FF, "SKP_Vx"⟩
  | .sknp _ => ⟨0xE0A1, 0xF0FF, "SKNP_Vx"⟩
  | .ldVxDT _ => ⟨0xF007, 0xF0FF, "LD_Vx__DT"⟩
  | .ldVxK _ => ⟨0xF00A, 0xF0FF, "LD_Vx__K"⟩
  | .ldDT _ => ⟨0xF015, 0xF0FF, "LD_DT__Vx"⟩
  | .ldST _ => ⟨0xF018, 0xF0FF, "LD_ST__Vx"⟩
  | .addI _ => ⟨0xF01E, 0xF0FF, "ADD_I__Vx"⟩
  | .ldF _ => ⟨0xF029, 0xF0FF, "LD_F__Vx"⟩
  | .ldB _ => ⟨0xF033, 0xF0FF, "LD_B__Vx"⟩
  | .storeRegs _ => ⟨0xF055, 0xF0FF, "LD__I___Vx"⟩
  | .loadRegs _ => ⟨0xF065, 0xF0FF, "LD_Vx___I"⟩

/-- The rows of R95, in the table's order. -/
def opcodeMap : List OpcodeRow :=
  [rowOf .cls, rowOf .ret, rowOf (.jp 0), rowOf (.call 0), rowOf (.seImm 0 0), rowOf (.sneImm 0 0), rowOf (.seReg 0 0),
   rowOf (.ldImm 0 0), rowOf (.addImm 0 0)] ++
  [rowOf (.ldReg 0 0), rowOf (.orReg 0 0), rowOf (.andReg 0 0), rowOf (.xorReg 0 0), rowOf (.addReg 0 0),
   rowOf (.subReg 0 0), rowOf (.shr 0), rowOf (.subn 0 0), rowOf (.shl 0), rowOf (.sneReg 0 0)] ++
  [rowOf (.ldI 0), rowOf (.jpV0 0), rowOf (.rnd 0 0), rowOf (.drw 0 0 0), rowOf (.skp 0), rowOf (.sknp 0)] ++
  [rowOf (.ldVxDT 0), rowOf (.ldVxK 0), rowOf (.ldDT 0), rowOf (.ldST 0), rowOf (.addI 0), rowOf (.ldF 0), rowOf (.ldB 0),
   rowOf (.storeRegs 0), rowOf (.loadRegs 0)]

end Sys2Proof
end

