-- ==== Sys2Proof/Config.lean ====
section
/-!
DEFINITION. The implementation parameters of spec/00_scope.md R9, with R9's defaults, and the free value of CXNN.
R290 has construction take them; the model keeps them in State.cfg (log 4).
-/

namespace Sys2Proof

/-- MEM_OOB_POLICY: what a byte access at an address of MEM_SIZE or more does (R64, D5). -/
inductive MemOobPolicy where
  | fault
  | wrap
  deriving DecidableEq, Repr

/-- OFFSCREEN_POLICY: what a sprite pixel off the grid does (R217, D6). -/
inductive OffscreenPolicy where
  | fault
  | clip
  | wrap
  deriving DecidableEq, Repr

/-- COLLISION_RULE: which target pixels set VF in DXYN (R218, D35). -/
inductive CollisionRule where
  | anyLitPixel
  | litAndSpriteBit
  deriving DecidableEq, Repr

/-- VF_DEST_ORDER: which of VF and the destination is written first (R179, D12). -/
inductive VfDestOrder where
  | flagThenResult
  | resultThenFlag
  deriving DecidableEq, Repr

/-- The 80 bytes of parameter FONT, five for each hex digit 0..F (R39). -/
def Config.standardFont : Vector Byte 80 :=
  #v[0xF0, 0x90, 0x90, 0x90, 0xF0,
     0x20, 0x60, 0x20, 0x20, 0x70,
     0xF0, 0x10, 0xF0, 0x80, 0xF0,
     0xF0, 0x10, 0xF0, 0x10, 0xF0,
     0x90, 0x90, 0xF0, 0x10, 0x10,
     0xF0, 0x80, 0xF0, 0x10, 0xF0,
     0xF0, 0x80, 0xF0, 0x90, 0xF0,
     0xF0, 0x10, 0x20, 0x40, 0x40,
     0xF0, 0x90, 0xF0, 0x90, 0xF0,
     0xF0, 0x90, 0xF0, 0x10, 0xF0,
     0xF0, 0x90, 0xF0, 0x90, 0x90,
     0xE0, 0x90, 0xE0, 0x90, 0xE0,
     0xF0, 0x80, 0x80, 0x80, 0xF0,
     0xE0, 0x90, 0x90, 0x90, 0xE0,
     0xF0, 0x80, 0xF0, 0x80, 0xF0,
     0xF0, 0x80, 0xF0, 0x80, 0x80]

/-- The configuration construction takes (R9, R290). -/
structure Config where
  memSize      : Nat
  progStart    : Word
  fontBase     : Nat
  font         : Vector Byte 80
  memOob       : MemOobPolicy
  offscreen    : OffscreenPolicy
  collision    : CollisionRule
  vfDestOrder  : VfDestOrder
  initFb       : Framebuffer
  initMemFill  : Byte
  deriving DecidableEq, Repr

/-- Every parameter at the value R9 gives it. -/
def Config.default : Config where
  memSize      := 4096
  progStart    := 0x200
  fontBase     := 0
  font         := Config.standardFont
  memOob       := .fault
  offscreen    := .fault
  collision    := .anyLitPixel
  vfDestOrder  := .flagThenResult
  initFb       := Vector.replicate 64 (Vector.replicate 32 false)
  initMemFill  := 0

/-- A configuration in which the font and the program offset lie inside the memory (log 4). -/
def Config.wf (c : Config) : Bool :=
  decide (c.fontBase + 80 ≤ c.memSize) && decide (c.progStart.toNat ≤ c.memSize)

/-- FREE VALUE, DESIGN CHOICE in its form (log 2): the byte the environment supplies to the n-th execution of CXNN,
n counted from 0 by `State.draws`.  R175 lets it be any byte, so nothing here says which it is. -/
opaque Config.randByte : Nat → Byte

end Sys2Proof
end

