-- ==== Sys2Proof/Machine/Memory.lean ====
section
/-!
DEFINITION. The addressable memory `M` as plain data (spec/10_state.md R38, spec/20_memory.md R70): the list of the bytes
that differ from the construction contents, by strictly rising address.
-/

namespace Sys2Proof.Machine

/-- The bytes that differ from what construction puts there, by strictly rising address (log 7). -/
abbrev Memory := List Host.Cell

/-- What an unlisted address reads as: the construction contents, the font at FONT_BASE and INIT_MEM_FILL everywhere else
(R38, R39, R54). -/
def initByte (c : Config) (a : Nat) : Byte :=
  if h : c.fontBase ≤ a ∧ a < c.fontBase + 80 then c.font[a - c.fontBase]'(by omega) else c.initMemFill

/-- The byte listed for an address, if one is. -/
def Memory.listed (a : Nat) : Memory → Option Byte
  | [] => none
  | c :: m => if c.1 = a then some c.2 else Memory.listed a m

/-- The byte at an address, of an address that construction left holding `d`. -/
def Memory.get (d : Byte) (a : Nat) (m : Memory) : Byte := (Memory.listed a m).getD d

/-- The list without an address. -/
def Memory.erase (a : Nat) (m : Memory) : Memory := m.filter fun c => c.1 != a

/-- The list with a cell put before the first greater address. -/
def Memory.insert (a : Nat) (b : Byte) : Memory → Memory
  | [] => [(a, b)]
  | c :: m => if a < c.1 then (a, b) :: c :: m else c :: Memory.insert a b m

/-- Store a byte at an address that construction left holding `d`; storing `d` itself removes the entry, so that equal
memories are equal lists. -/
def Memory.put (d : Byte) (a : Nat) (b : Byte) (m : Memory) : Memory :=
  if b = d then Memory.erase a m else Memory.insert a b (Memory.erase a m)

/-- The canonical form: addresses of the memory, strictly rising, none listed with its construction value. -/
abbrev Memory.wf (c : Config) (m : Memory) : Prop :=
  m.Pairwise (fun p q => p.1 < q.1) ∧ ∀ p ∈ m, p.1 < c.memSize ∧ p.2 ≠ initByte c p.1

end Sys2Proof.Machine
end

