-- ==== Sys2Proof/Machine/State.lean ====
section
/-!
DEFINITION. The block's state (spec/10_state.md), its faults (spec/60_exceptions.md R260), the refusals, and construction,
which is the block's only reset (R54, R290).
-/

namespace Sys2Proof.Machine

/-- The fault kinds of R260 with the information each records. A step that raises one answers a NEXT state that records it;
a step of a block that has recorded one answers `Outcome.fault` with it and changes nothing (R129, R267; log 5). -/
inductive Fault where
  /-- Raised by 2NNN when the stack is full, with the return address that could not be pushed (R41, R142). Safe: the spec's own stop. -/
  | stackOverflow (ret : Word)
  /-- Raised by 00EE when the stack is empty (R42, R140). Safe: the spec's own stop. -/
  | stackUnderflow
  /-- Raised by the decode of a word that no row selects, with the raw word (R96, R123). Safe: the spec's own stop. -/
  | unknownOpcode (op : Word)
  /-- Raised by the fetch, DXYN, FX33, FX55 and FX65 at an address of MEM_SIZE or more under MEM_OOB_POLICY = fault, with the
  address (R64). Safe: the policy gives the case no meaning. -/
  | memoryOutOfRange (addr : Nat)
  /-- Raised by DXYN at a target off the grid under OFFSCREEN_POLICY = fault, with the coordinate (R217). Safe: the policy gives
  the case no meaning. -/
  | pixelOutOfRange (px py : Nat)
  /-- Raised by EX9E and EXA1 when `V[x]` is 16 or more, with the key index (R240, R241). Safe: the spec gives the case no meaning. -/
  | keyIndexOutOfRange (k : Byte)
  deriving DecidableEq, Repr

/-- What the model refuses. No step refuses; the host operations refuse what the interface does not admit. -/
inductive Refusal where
  /-- An instruction with no meaning in the model. No arm of exec uses it. Safe. -/
  | notModelled (mnemonic : String)
  /-- pressKey or releaseKey with an index outside 0..15 (R245, R246, D18). Raised by HostOps. Safe. -/
  | keyNotAdmitted (k : Nat)
  /-- loadProgram with an image longer than MEM_SIZE - PROG_START (R293, D26). Raised by HostOps. Safe. -/
  | imageTooLarge (len : Nat)
  /-- loadProgram after the first step (R294, D26). Raised by HostOps. Safe. -/
  | loadAfterStep
  /-- A second loadProgram, in a launched session before its first step: the spec loads once (R294, D26; log 10). Raised by
  HostOps. Safe. -/
  | loadTwice
  deriving DecidableEq, Repr

/-- The interpreter's run state (R48). -/
inductive RunState where
  | running
  /-- FX0A waits for a key press, whose index goes to this register. -/
  | waitingForKey (r : Reg)
  deriving DecidableEq, Repr

/-- A recorded fault: its kind with its information, and `fetchedAt`, the address the faulting step fetched from (R49, R260). -/
structure FaultRecord where
  kind      : Fault
  fetchedAt : Word
  deriving DecidableEq, Repr

/-- Everything the spec gives the block (R30-R54), and two fields of the model's own: `cfg`, the parameters of R9 (log 4), and
`draws`, the number of random bytes drawn (log 2). -/
structure State where
  cfg    : Config
  v      : Vector Byte 16
  pc     : Word
  i      : Word
  mem    : Memory
  stack  : Vector Word 16
  sp     : Fin 17
  dt     : Byte
  st     : Byte
  keys   : Vector Bool 16
  fb     : Framebuffer
  redraw : Bool
  run    : RunState
  fault  : Option FaultRecord
  beeps  : Nat
  draws  : Nat
  deriving DecidableEq, Repr

/-- Construction with a configuration: every element at its value of R54 (R290). The 16 stack slots hold no entry, and their
value is the model's (log 1); `draws` starts at 0 (log 3). -/
def State.construct (c : Config) : State where
  cfg    := c
  v      := Vector.replicate 16 0
  pc     := c.progStart
  i      := 0
  mem    := []
  stack  := Vector.replicate 16 0
  sp     := 0
  dt     := 0
  st     := 0
  keys   := Vector.replicate 16 false
  fb     := c.initFb
  redraw := false
  run    := .running
  fault  := none
  beeps  := 0
  draws  := 0

/-- The block right after construction with R9's defaults (R54). -/
def State.reset : State := State.construct Config.default

end Sys2Proof.Machine
end

