-- ==== Sys2Proof/Machine/Ops.lean ====
section
/-!
DEFINITION. The primitives of spec/00_scope.md R12 over State: registers, memory port, call stack, framebuffer, timers, random
byte, and taking a fault. Every register has one home in State and is reached through these.
-/

namespace Sys2Proof.Machine

/-! ## Accessors and single-field updates -/

/-- `V[x]` (R30). -/
def State.getV (s : State) (x : Reg) : Byte := s.v[x.val]

/-- `V[x] <- b` (R30). -/
def State.setV (s : State) (x : Reg) (b : Byte) : State := { s with v := s.v.set x.val b }

/-- `pc <- w` (R34). -/
def State.setPc (s : State) (w : Word) : State := { s with pc := w }

/-- `I <- w` (R37). -/
def State.setI (s : State) (w : Word) : State := { s with i := w }

/-- `DT <- b` (R43). -/
def State.setDT (s : State) (b : Byte) : State := { s with dt := b }

/-- `ST <- b` (R43). -/
def State.setST (s : State) (b : Byte) : State := { s with st := b }

/-- `Beep()`: one beep event, counted (R44, R50). -/
def State.beep (s : State) : State := { s with beeps := s.beeps + 1 }

/-- `redraw <- b` (R47). -/
def State.setRedraw (s : State) (b : Bool) : State := { s with redraw := b }

/-- `run <- r` (R48). -/
def State.setRun (s : State) (r : RunState) : State := { s with run := r }

/-- `Key[k]` (R45). -/
def State.getKey (s : State) (k : Fin 16) : Bool := s.keys[k.val]

/-- `Key[k] <- b`, used by the host operations only (R45). -/
def State.setKey (s : State) (k : Fin 16) (b : Bool) : State := { s with keys := s.keys.set k.val b }

/-- The stack slot `S[k]` (R40). -/
def State.getSlot (s : State) (k : Fin 16) : Word := s.stack[k.val]

/-- `S[k] <- w` and `sp <- d` (R40). -/
def State.setStack (s : State) (k : Fin 16) (w : Word) (d : Fin 17) : State :=
  { s with stack := s.stack.set k.val w, sp := d }

/-- `sp <- d` (R40). -/
def State.setSp (s : State) (d : Fin 17) : State := { s with sp := d }

/-- Record a fault in the state (R49, R262). -/
def State.recordFault (s : State) (r : FaultRecord) : State := { s with fault := some r }

/-! ## The framebuffer (R210-R213) -/

/-- `GetPixel(px, py)` (R210). -/
def State.getPixel (s : State) (px : Fin 64) (py : Fin 32) : Bool := (s.fb[px.val])[py.val]

/-- A pixel given a value, the shared part of SetPixel and ClearPixel. -/
def State.putPixel (s : State) (px : Fin 64) (py : Fin 32) (b : Bool) : State :=
  { s with fb := s.fb.set px.val ((s.fb[px.val]).set py.val b) }

/-- `SetPixel(px, py)` (R211). -/
def State.setPixel (s : State) (px : Fin 64) (py : Fin 32) : State := s.putPixel px py true

/-- `ClearPixel(px, py)` (R212). -/
def State.clearPixel (s : State) (px : Fin 64) (py : Fin 32) : State := s.putPixel px py false

/-- `ClearAll()` (R213). -/
def State.clearAll (s : State) : State := { s with fb := Vector.replicate 64 (Vector.replicate 32 false) }

/-! ## Faults (R261, R262) and the result of a body -/

/-- How an instruction's body ends: it ran to its end, or a `raise` ended it in the state reached so far (R261). -/
inductive Body where
  | done (s : State)
  | raised (f : Fault) (s : State)
  deriving Repr

/-- One part of a body after another; a raise in the first ends both (R261). -/
def Body.andThen (r : Body) (f : State → Body) : Body :=
  match r with
  | .done s => f s
  | .raised e s => .raised e s

/-- A loop of a body over a list of indices, in order (R191). -/
def Body.forEach {α : Type} (f : α → State → Body) : List α → State → Body
  | [], s => .done s
  | a :: as, s => (f a s).andThen (Body.forEach f as)

/-- TAKING A FAULT, the one shared operation (R49, R260, R262, R266): record the kind, its information and the address the step
fetched from. Nothing else changes and control goes nowhere. In a decode or a body `pc` holds that address plus 2 (R34) and no
body changes `pc` before it raises, so the address is `pc - 2` (DEDUCED, log 6). -/
def takeFault (f : Fault) (s : State) : State := s.recordFault ⟨f, s.pc - 2⟩

/-- Taking a fault of the fetch, where `pc` still holds the address fetched from (R122, R263). -/
def takeFetchFault (f : Fault) (s : State) : State := s.recordFault ⟨f, s.pc⟩

/-- The outcome of a body: the state it ends in, with a raised fault taken (R262). -/
def Body.outcome : Body → Host.Outcome State Fault Refusal
  | .done s => .next s
  | .raised f s => .next (takeFault f s)

/-- The code R260 numbers a fault kind by. No rule computes with it; it is for a reader of a recorded fault. -/
def Fault.code : Fault → Nat
  | .stackOverflow _ => 1
  | .stackUnderflow => 2
  | .unknownOpcode _ => 3
  | .memoryOutOfRange _ => 4
  | .pixelOutOfRange _ _ => 5
  | .keyIndexOutOfRange _ => 6

/-! ## The memory port (R60-R65) -/

/-- The byte `M[a]`, with no check of the address. -/
def State.readByte (s : State) (a : Nat) : Byte := Memory.get (initByte s.cfg a) a s.mem

/-- `M[a] <- b`, with no check of the address. -/
def State.putByte (s : State) (a : Nat) (b : Byte) : State :=
  { s with mem := Memory.put (initByte s.cfg a) a b s.mem }

/-- The byte an address reaches, under MEM_OOB_POLICY (R64). -/
def resolve (c : Config) (addr : Nat) : Except Fault Nat :=
  if addr < c.memSize then .ok addr
  else match c.memOob with
    | .fault => .error (.memoryOutOfRange addr)
    | .wrap => .ok (addr % c.memSize)

/-- `MemRead(addr, 1)` (R60, R64). -/
def memRead (addr : Nat) (s : State) : Except Fault Byte :=
  match resolve s.cfg addr with
  | .ok a => .ok (s.readByte a)
  | .error f => .error f

/-- `MemRead(addr, 2)`: big-endian, the high byte read first (R61). -/
def memReadWord (addr : Nat) (s : State) : Except Fault Word :=
  match memRead addr s with
  | .error f => .error f
  | .ok hi =>
    match memRead (addr + 1) s with
    | .error f => .error f
    | .ok lo => .ok (wordOfBytes hi lo)

/-- `MemWrite(addr, 1, v)` (R63, R64). -/
def memWrite (addr : Nat) (v : Byte) (s : State) : Body :=
  match resolve s.cfg addr with
  | .ok a => .done (s.putByte a v)
  | .error f => .raised f s

/-- The memory component's writeWord, which no instruction uses: two byte writes, the high byte first (R65). -/
def memWriteWord (addr : Nat) (w : Word) (s : State) : Body :=
  (memWrite addr (highByte w) s).andThen (memWrite (addr + 1) (lowByte w))

/-! ## The call stack (R41, R42) -/

/-- `Push(v)`; a failed push changes nothing (R41). -/
def push (w : Word) (s : State) : Body :=
  if h : s.sp.val < 16 then .done (s.setStack ⟨s.sp.val, h⟩ w ⟨s.sp.val + 1, by omega⟩)
  else .raised (.stackOverflow w) s

/-- `Pop()`; a failed pop changes nothing (R42). -/
def pop (s : State) : Except Fault (Word × State) :=
  if h : 0 < s.sp.val then
    .ok (s.getSlot ⟨s.sp.val - 1, by omega⟩, s.setSp ⟨s.sp.val - 1, by omega⟩)
  else .error .stackUnderflow

/-! ## The program counter, the timers and the random byte -/

/-- `pc <- (pc + 2) mod 65536`, the advance before the body (R121). -/
def advancePc (s : State) : State := s.setPc (s.pc + 2)

/-- `skip_next` (R128). -/
def skipNext (s : State) : State := s.setPc (s.pc + 2)

/-- A skip taken when its condition holds (R128). -/
def skipIf (b : Bool) (s : State) : State := if b then skipNext s else s

/-- The delay timer's part of Tick (R126). -/
def tickDelay (s : State) : State := if s.dt = 0 then s else s.setDT (s.dt - 1)

/-- The sound timer's part of Tick; the transition from 1 to 0 beeps (R44, R126). -/
def tickSound (s : State) : State :=
  if s.st = 0 then s
  else if s.st = 1 then (s.setST 0).beep
  else s.setST (s.st - 1)

/-- `Tick()` (R126). -/
def tick (s : State) : State := tickSound (tickDelay s)

/-- `RandByte()`: the environment's next byte, and the state with that byte used up (R175, log 2). -/
def randByte (s : State) : Byte × State := (Config.randByte s.draws, { s with draws := s.draws + 1 })

end Sys2Proof.Machine
end

