-- ==== Sys2Proof/Machine/Cycle.lean ====
section
/-!
DEFINITION. The parts of the step cycle around Execute (spec/40_execution_cycle.md R121-R130) and the placing of an instruction
word where the next step fetches it. Step.lean puts them together.
-/

namespace Sys2Proof.Machine

/-- `op <- MemRead(pc, 2)` (R62, R122). -/
def fetch (s : State) : Except Fault Word := memReadWord s.pc.toNat s

/-- A step of a faulted block: no effect, the recorded fault is returned (R129, R267). -/
def faultedStep (r : FaultRecord) : Host.Outcome State Fault Refusal := .fault r.kind

/-- A step of a block that waits for a key: no effect (R127). -/
def waitingStep (s : State) : Host.Outcome State Fault Refusal := .next s

/-- A step whose fetch raises: `pc` is unchanged (R122, R263). -/
def fetchFaultStep (f : Fault) (s : State) : Host.Outcome State Fault Refusal := .next (takeFetchFault f s)

/-- A step whose word selects no row: `pc` has advanced (R123, R263, D9). -/
def unknownOpcodeStep (op : Word) (s : State) : Host.Outcome State Fault Refusal :=
  .next (takeFault (.unknownOpcode op) (advancePc s))

/-- The end of a step whose body has run: Tick, unless the body raised (R121, R261). -/
def endStep (s : State) : State := if s.fault.isSome then s else tick s

/-- The outcome of a step from its body's (R121). -/
def finishStep : Host.Outcome State Fault Refusal → Host.Outcome State Fault Refusal
  | .next s => .next (endStep s)
  | .fault f => .fault f
  | .refused r => .refused r

/-- A state that would fetch: Running, with no fault recorded (R121). -/
def readyToFetch (s : State) : State := { s with run := .running, fault := none }

/-- A word stored at an address, or as much of it as the memory holds. -/
def placeWord (addr : Nat) (w : Word) (s : State) : State :=
  match memWriteWord addr w s with
  | .done t => t
  | .raised _ t => t

end Sys2Proof.Machine
end

