-- ==== Sys2Proof/Machine/Flags.lean ====
section
/-!
DEFINITION. The flag computations and the 8-bit results of spec/42_register_alu.md R177, the order of the two writes (R179), and
the collision rule of spec/44_display.md R218. VF is the only flag (R31).
-/

namespace Sys2Proof.Machine

/-- 8XY4: 1 if the exact sum exceeds 255 (R166). -/
def carryFlag (p q : Byte) : Byte := bit01 (decide (p.toNat + q.toNat > 255))

/-- 8XY5 (and 8XY7 with its operands exchanged): 1 if `p > q`, strictly (R167, R169). -/
def notBorrowFlag (p q : Byte) : Byte := bit01 (decide (p.toNat > q.toNat))

/-- 8XY6: the bit shifted out, 0 or 1 (R168). -/
def shrFlag (p : Byte) : Byte := p &&& 0x01

/-- 8XYE: the raw masked bit, 0x00 or 0x80 (R170). -/
def shlFlag (p : Byte) : Byte := p &&& 0x80

/-- `(p + q) mod 256`, from the exact sum (R176). -/
def addByte (p q : Byte) : Byte := BitVec.ofNat 8 (p.toNat + q.toNat)

/-- `(p - q) mod 256`, from the exact difference (R11, R176). -/
def subByte (p q : Byte) : Byte := BitVec.ofInt 8 ((p.toNat : Int) - (q.toNat : Int))

/-- `p >> 1` (R168). -/
def shrByte (p : Byte) : Byte := BitVec.ofNat 8 (p.toNat / 2)

/-- `(p * 2) mod 256` (R170). -/
def shlByte (p : Byte) : Byte := BitVec.ofNat 8 (p.toNat * 2)

/-- The two writes of a flag-writing instruction, VF and then the destination, or the other way round under
VF_DEST_ORDER = result_then_flag; they matter only for x = F (R179). -/
def writeFlagged (x : Reg) (flag result : Byte) (s : State) : State :=
  match s.cfg.vfDestOrder with
  | .flagThenResult => (s.setV VF flag).setV x result
  | .resultThenFlag => (s.setV x result).setV VF flag

/-- `Collides(p, s)`: whether a target pixel sets VF (R218). -/
def collides (c : Config) (pixel bit : Bool) : Bool :=
  match c.collision with
  | .anyLitPixel => pixel
  | .litAndSpriteBit => pixel && bit

end Sys2Proof.Machine
end

