-- ==== Sys2Proof/Machine/Operands.lean ====
section
/-!
DEFINITION. The operand forms: immediates and addresses made from them, effective addresses, register ranges, decimal digits,
sprite bits and pixel targets (spec/30_encoding.md R92, spec/20_memory.md R72, spec/44_display.md R217).
-/

namespace Sys2Proof.Machine

/-- `zext_16(nnn)` (R92). -/
def zext16 (nnn : BitVec 12) : Word := nnn.setWidth 16

/-- A register's value as a 16-bit value, zero-extended (R11). -/
def byteToWord (b : Byte) : Word := b.setWidth 16

/-- The effective address `I + k`, an exact natural (R72, R77). -/
def effAddr (s : State) (k : Nat) : Nat := s.i.toNat + k

/-- The registers `V0..Vx`, ascending (R195, R196). -/
def regsUpTo (x : Reg) : List Reg := (List.finRange 16).take (x.val + 1)

/-- The hundreds, tens and ones digits of a byte, with their offsets from `I` (R194). -/
def bcdDigits (b : Byte) : List (Nat × Byte) :=
  [(0, BitVec.ofNat 8 (b.toNat / 100)), (1, BitVec.ofNat 8 (b.toNat / 10 % 10)), (2, BitVec.ofNat 8 (b.toNat % 10))]

/-- The address of the font glyph of a value: `V[x] * 5`, not masked (R193). -/
def glyphAddr (b : Byte) : Word := BitVec.ofNat 16 (b.toNat * 5)

/-- The key latch cell a register names; none for 16 or more (R240, R241). -/
def keyIndex (b : Byte) : Option (Fin 16) := if h : b.toNat < 16 then some ⟨b.toNat, h⟩ else none

/-- The sprite bit of column `j`, the most significant bit first (R214). -/
def spriteBit (b : Byte) (j : Nat) : Bool := b.getLsbD (7 - j)

/-- `Target(px, py)`: the grid pixel of a coordinate, none for one that is skipped, or the fault (R217). -/
def target (c : Config) (px py : Nat) : Except Fault (Option (Fin 64 × Fin 32)) :=
  if h : px < 64 ∧ py < 32 then .ok (some (⟨px, h.1⟩, ⟨py, h.2⟩))
  else match c.offscreen with
    | .fault => .error (.pixelOutOfRange px py)
    | .clip => .ok none
    | .wrap => .ok (some (⟨px % 64, Nat.mod_lt _ (by decide)⟩, ⟨py % 32, Nat.mod_lt _ (by decide)⟩))

end Sys2Proof.Machine
end

