-- ==== Sys2Proof/Machine/Alu.lean ====
section
/-!
DEFINITION. The register and ALU instructions (spec/42_register_alu.md). None raises a fault.
-/

namespace Sys2Proof.Machine

/-- LD Vx, kk (R160). -/
def execLdImm (x : Reg) (kk : Byte) (s : State) : Host.Outcome State Fault Refusal := .next (s.setV x kk)

/-- ADD Vx, kk (R161): no flag. -/
def execAddImm (x : Reg) (kk : Byte) (s : State) : Host.Outcome State Fault Refusal :=
  .next (s.setV x (addByte (s.getV x) kk))

/-- LD Vx, Vy (R162). -/
def execLdReg (x y : Reg) (s : State) : Host.Outcome State Fault Refusal := .next (s.setV x (s.getV y))

/-- OR Vx, Vy (R163): VF is not cleared. -/
def execOrReg (x y : Reg) (s : State) : Host.Outcome State Fault Refusal := .next (s.setV x (s.getV x ||| s.getV y))

/-- AND Vx, Vy (R164). -/
def execAndReg (x y : Reg) (s : State) : Host.Outcome State Fault Refusal := .next (s.setV x (s.getV x &&& s.getV y))

/-- XOR Vx, Vy (R165). -/
def execXorReg (x y : Reg) (s : State) : Host.Outcome State Fault Refusal := .next (s.setV x (s.getV x ^^^ s.getV y))

/-- ADD Vx, Vy (R166). -/
def execAddReg (x y : Reg) (s : State) : Host.Outcome State Fault Refusal :=
  .next (writeFlagged x (carryFlag (s.getV x) (s.getV y)) (addByte (s.getV x) (s.getV y)) s)

/-- SUB Vx, Vy (R167). -/
def execSubReg (x y : Reg) (s : State) : Host.Outcome State Fault Refusal :=
  .next (writeFlagged x (notBorrowFlag (s.getV x) (s.getV y)) (subByte (s.getV x) (s.getV y)) s)

/-- SHR Vx (R168): the source is Vx itself. -/
def execShr (x : Reg) (s : State) : Host.Outcome State Fault Refusal :=
  .next (writeFlagged x (shrFlag (s.getV x)) (shrByte (s.getV x)) s)

/-- SUBN Vx, Vy (R169). -/
def execSubn (x y : Reg) (s : State) : Host.Outcome State Fault Refusal :=
  .next (writeFlagged x (notBorrowFlag (s.getV y) (s.getV x)) (subByte (s.getV y) (s.getV x)) s)

/-- SHL Vx (R170): the source is Vx itself. -/
def execShl (x : Reg) (s : State) : Host.Outcome State Fault Refusal :=
  .next (writeFlagged x (shlFlag (s.getV x)) (shlByte (s.getV x)) s)

/-- RND with its draw given (R175). -/
def rndWith (r : Byte) (x : Reg) (kk : Byte) (s : State) : State := s.setV x (r &&& kk)

/-- RND Vx, kk (R175): the draw is a free value (log 2). -/
def execRnd (x : Reg) (kk : Byte) (s : State) : Host.Outcome State Fault Refusal :=
  .next (rndWith (randByte s).1 x kk (randByte s).2)

end Sys2Proof.Machine
end

