-- ==== Sys2Proof/Machine/Control.lean ====
section
/-!
DEFINITION. The control flow instructions (spec/41_control_flow.md). Each body runs with `pc` already advanced (R34).
-/

namespace Sys2Proof.Machine

/-- RET (R140). -/
def execRet (s : State) : Host.Outcome State Fault Refusal :=
  match pop s with
  | .ok (w, t) => .next (t.setPc w)
  | .error f => .next (takeFault f s)

/-- JP nnn (R141). -/
def execJp (nnn : BitVec 12) (s : State) : Host.Outcome State Fault Refusal := .next (s.setPc (zext16 nnn))

/-- CALL nnn (R142): the push fails before `pc` is set. -/
def execCall (nnn : BitVec 12) (s : State) : Host.Outcome State Fault Refusal :=
  ((push s.pc s).andThen fun t => .done (t.setPc (zext16 nnn))).outcome

/-- SE Vx, kk (R143). -/
def execSeImm (x : Reg) (kk : Byte) (s : State) : Host.Outcome State Fault Refusal :=
  .next (skipIf (s.getV x == kk) s)

/-- SNE Vx, kk (R144). -/
def execSneImm (x : Reg) (kk : Byte) (s : State) : Host.Outcome State Fault Refusal :=
  .next (skipIf (s.getV x != kk) s)

/-- SE Vx, Vy (R145). -/
def execSeReg (x y : Reg) (s : State) : Host.Outcome State Fault Refusal :=
  .next (skipIf (s.getV x == s.getV y) s)

/-- SNE Vx, Vy (R146). -/
def execSneReg (x y : Reg) (s : State) : Host.Outcome State Fault Refusal :=
  .next (skipIf (s.getV x != s.getV y) s)

/-- JP V0, nnn (R147): the offset register is always V0. -/
def execJpV0 (nnn : BitVec 12) (s : State) : Host.Outcome State Fault Refusal :=
  .next (s.setPc (zext16 nnn + byteToWord (s.getV 0)))

end Sys2Proof.Machine
end

