-- ==== Sys2Proof/Machine/Display.lean ====
section
/-!
DEFINITION. The display instructions (spec/44_display.md R214, R215, R217, R218).
-/

namespace Sys2Proof.Machine

/-- CLS (R215). -/
def execCls (s : State) : Host.Outcome State Fault Refusal := .next (s.clearAll.setRedraw true)

/-- A collision sets VF; nothing clears it during the draw (R214, R218). -/
def markCollision (b : Bool) (s : State) : State := if b then s.setV VF 1 else s

/-- The pixel's new value, by SetPixel or ClearPixel (R214). -/
def writePixel (px : Fin 64) (py : Fin 32) (b : Bool) (s : State) : State :=
  if b then s.setPixel px py else s.clearPixel px py

/-- One sprite bit composed onto a grid pixel: collision, then XOR (R214). -/
def xorPixel (px : Fin 64) (py : Fin 32) (bit : Bool) (s : State) : State :=
  writePixel px py (s.getPixel px py ^^ bit) (markCollision (collides s.cfg (s.getPixel px py) bit) s)

/-- One column of DXYN's inner loop, at the computed coordinate (R214, R217). -/
def drawColumn (cx py : Nat) (b : Byte) (j : Nat) (s : State) : Body :=
  match target s.cfg (cx + j) py with
  | .error f => .raised f s
  | .ok none => .done s
  | .ok (some (px, qy)) => .done (xorPixel px qy (spriteBit b j) s)

/-- One row of DXYN's outer loop: the row's byte, then its eight columns (R214). -/
def drawRow (cx cy k : Nat) (s : State) : Body :=
  match memRead (effAddr s k) s with
  | .error f => .raised f s
  | .ok b => Body.forEach (drawColumn cx (cy + k) b) (List.range 8) s

/-- DRW Vx, Vy, n (R214): the coordinates are read before VF is cleared (D11), and `redraw` is set only at the end. -/
def execDrw (x y : Reg) (n : Nat) (s : State) : Host.Outcome State Fault Refusal :=
  ((Body.forEach (drawRow (s.getV x).toNat (s.getV y).toNat) (List.range n) (s.setV VF 0)).andThen
    fun t => .done (t.setRedraw true)).outcome

end Sys2Proof.Machine
end

