-- ==== Sys2Proof/Machine/Index.lean ====
section
/-!
DEFINITION. The index register and memory instructions (spec/43_index_memory.md). Accesses happen one byte at a time, in order,
and those before a fault stay (R191).
-/

namespace Sys2Proof.Machine

/-- LD I, nnn (R190). -/
def execLdI (nnn : BitVec 12) (s : State) : Host.Outcome State Fault Refusal := .next (s.setI (zext16 nnn))

/-- ADD I, Vx (R192): modulo 65536, no flag. -/
def execAddI (x : Reg) (s : State) : Host.Outcome State Fault Refusal :=
  .next (s.setI (BitVec.ofNat 16 (s.i.toNat + (s.getV x).toNat)))

/-- LD F, Vx (R193). -/
def execLdF (x : Reg) (s : State) : Host.Outcome State Fault Refusal := .next (s.setI (glyphAddr (s.getV x)))

/-- `MemWrite(I + k, 1, b)` (R194, R195). -/
def storeCell (d : Nat × Byte) (s : State) : Body := memWrite (effAddr s d.1) d.2 s

/-- LD B, Vx (R194): hundreds, tens, ones at `I`, `I + 1`, `I + 2`. -/
def execLdB (x : Reg) (s : State) : Host.Outcome State Fault Refusal :=
  (Body.forEach storeCell (bcdDigits (s.getV x)) s).outcome

/-- One pass of FX55's loop (R195). -/
def storeReg (r : Reg) (s : State) : Body := storeCell (r.val, s.getV r) s

/-- LD [I], Vx (R195). -/
def execStoreRegs (x : Reg) (s : State) : Host.Outcome State Fault Refusal :=
  (Body.forEach storeReg (regsUpTo x) s).outcome

/-- `V[r] <- MemRead(I + r, 1)`, one pass of FX65's loop (R196). -/
def loadReg (r : Reg) (s : State) : Body :=
  match memRead (effAddr s r.val) s with
  | .ok b => .done (s.setV r b)
  | .error f => .raised f s

/-- LD Vx, [I] (R196). -/
def execLoadRegs (x : Reg) (s : State) : Host.Outcome State Fault Refusal :=
  (Body.forEach loadReg (regsUpTo x) s).outcome

end Sys2Proof.Machine
end

