-- ==== Sys2Proof/Machine/Keys.lean ====
section
/-!
DEFINITION. The key and timer instructions (spec/45_keys_timers.md).
-/

namespace Sys2Proof.Machine

/-- SKP Vx (R240). -/
def execSkp (x : Reg) (s : State) : Host.Outcome State Fault Refusal :=
  match keyIndex (s.getV x) with
  | some k => .next (skipIf (s.getKey k) s)
  | none => .next (takeFault (.keyIndexOutOfRange (s.getV x)) s)

/-- SKNP Vx (R241). -/
def execSknp (x : Reg) (s : State) : Host.Outcome State Fault Refusal :=
  match keyIndex (s.getV x) with
  | some k => .next (skipIf (!s.getKey k) s)
  | none => .next (takeFault (.keyIndexOutOfRange (s.getV x)) s)

/-- LD Vx, DT (R248): the value before this step's tick. -/
def execLdVxDT (x : Reg) (s : State) : Host.Outcome State Fault Refusal := .next (s.setV x s.dt)

/-- LD Vx, K (R249): Vx is written by the key press that ends the wait. -/
def execLdVxK (x : Reg) (s : State) : Host.Outcome State Fault Refusal := .next (s.setRun (.waitingForKey x))

/-- LD DT, Vx (R250). -/
def execLdDT (x : Reg) (s : State) : Host.Outcome State Fault Refusal := .next (s.setDT (s.getV x))

/-- LD ST, Vx (R251). -/
def execLdST (x : Reg) (s : State) : Host.Outcome State Fault Refusal := .next (s.setST (s.getV x))

end Sys2Proof.Machine
end

