-- ==== Sys2Proof/Machine/Step.lean ====
section
/-!
DEFINITION. One `step()` (spec/40_execution_cycle.md R121, R127, R129), and an instruction word placed for the next step.
-/

namespace Sys2Proof.Machine

/-- `step()`: a faulted block reports its fault and a waiting block does nothing. A running block fetches, advances `pc`,
decodes, executes and ticks (R121). -/
def step (s : State) : Host.Outcome State Fault Refusal :=
  match s.fault with
  | some r => faultedStep r
  | none =>
    match s.run with
    | .waitingForKey _ => waitingStep s
    | .running =>
      match fetch s with
      | .error f => fetchFaultStep f s
      | .ok op =>
        match decodeWord op with
        | .error _ => unknownOpcodeStep op s
        | .ok i => finishStep (exec i (advancePc s))

/-- `s` with an instruction word stored where the next step fetches, Running and with no fault recorded, as the fetch needs
(log 9). -/
def State.withFetchWord (s : State) (nbits w : Nat) : State :=
  placeWord s.pc.toNat (BitVec.ofNat 16 (w % 2 ^ nbits)) (readyToFetch s)

end Sys2Proof.Machine
end

