-- ==== Sys2Proof/Machine/HostOps.lean ====
section
/-!
DEFINITION. The host's operations (spec/40_execution_cycle.md R120, R131, R133, spec/45_keys_timers.md R245, R246,
spec/70_reset_and_hazards.md R290-R294), each one atomic transaction, and sessions: any sequence of them (R133, R134).
-/

namespace Sys2Proof.Machine

/-! ## Single operations -/

/-- The end of a key wait: the pending register receives the key's index (R245). -/
def endWait (k : Fin 16) (s : State) : State :=
  match s.run with
  | .waitingForKey r => (s.setV r (BitVec.ofNat 8 k.val)).setRun .running
  | .running => s

/-- `pressKey(k)` (R245). -/
def pressKey (k : Fin 16) (s : State) : State := endWait k (s.setKey k true)

/-- `releaseKey(k)` (R246). -/
def releaseKey (k : Fin 16) (s : State) : State := s.setKey k false

/-- `clearRedraw()` (R131). -/
def clearRedraw (s : State) : State := s.setRedraw false

/-- The bytes of an image with their addresses from PROG_START (R293). -/
def imageCells (c : Config) (bytes : List Byte) : List (Byte × Nat) := bytes.zipIdx c.progStart.toNat

/-- The image's bytes stored, in order (R293). -/
def storeImage (bytes : List Byte) (s : State) : State :=
  (imageCells s.cfg bytes).foldl (fun t p => t.putByte p.2 p.1) s

/-- `loadProgram(bytes)`: an image longer than MEM_SIZE - PROG_START is refused (R293). -/
def loadProgram (bytes : List Byte) (s : State) : Host.Outcome State Fault Refusal :=
  if bytes.length ≤ s.cfg.memSize - s.cfg.progStart.toNat then .next (storeImage bytes s)
  else .refused (.imageTooLarge bytes.length)

/-! ## Sessions -/

/-- Where a launched session is in the boot sequence of R294: its program is loaded, and no step or at least one step has
been taken. A block that is constructed and not yet loaded is no session (R294, log 10). -/
inductive Phase where
  | loaded
  | stepped
  deriving DecidableEq, Repr

/-- A launched block and its place in the boot sequence. -/
structure Session where
  phase : Phase
  block : State
  deriving DecidableEq, Repr

/-- The operations of R120 that act on a launched session (R294 step 3). -/
inductive HostOp where
  | loadProgram (bytes : List Byte)
  | step
  | pressKey (k : Nat)
  | releaseKey (k : Nat)
  | readRedraw
  | clearRedraw
  | readPixel (px : Fin 64) (py : Fin 32)
  deriving DecidableEq, Repr

/-- What an operation returns to the host (R120, R130), or that the interface does not admit it. -/
inductive Reply where
  | done
  | ok
  | faulted (r : FaultRecord)
  | redraw (b : Bool)
  | pixel (b : Bool)
  | notAdmitted (r : Refusal)
  deriving DecidableEq, Repr

/-- The result of a step, from the state it left (R130). -/
def stepReply (s : State) : Reply :=
  match s.fault with
  | none => .ok
  | some r => .faulted r

/-- The block after a step: a step that answers a fault leaves it as it was (R129, R267). -/
def blockAfterStep (s : State) : State :=
  match step s with
  | .next t => t
  | .fault _ => s
  | .refused _ => s

/-- The launch of a session, with the program image as its argument: construct, then `loadProgram` once, both before any
step and any other host operation (R294 steps 1 and 2, R290, R293). An image that is too long is refused. -/
def Session.launch (c : Config) (bytes : List Byte) : Host.Outcome Session Fault Refusal :=
  match loadProgram bytes (State.construct c) with
  | .next t => .next ⟨.loaded, t⟩
  | .fault f => .fault f
  | .refused r => .refused r

/-- `loadProgram` in a launched session, which has loaded its program: refused, under one name before the first step and
another after it (R294, D26, log 10). -/
def loadOp (u : Session) : Session × Reply :=
  match u.phase with
  | .loaded => (u, .notAdmitted .loadTwice)
  | .stepped => (u, .notAdmitted .loadAfterStep)

/-- `step` in a session. -/
def stepOp (u : Session) : Session × Reply :=
  (⟨.stepped, blockAfterStep u.block⟩, stepReply (blockAfterStep u.block))

/-- A key event in a session; an index of 16 or more is not admitted (R245, R246, D18). -/
def keyOp (f : Fin 16 → State → State) (k : Nat) (u : Session) : Session × Reply :=
  if h : k < 16 then (⟨u.phase, f ⟨k, h⟩ u.block⟩, .done) else (u, .notAdmitted (.keyNotAdmitted k))

/-- One host operation, run to completion (R120, R133). -/
def hostOp (o : HostOp) (u : Session) : Session × Reply :=
  match o with
  | .loadProgram _ => loadOp u
  | .step => stepOp u
  | .pressKey k => keyOp Sys2Proof.Machine.pressKey k u
  | .releaseKey k => keyOp Sys2Proof.Machine.releaseKey k u
  | .readRedraw => (u, .redraw u.block.redraw)
  | .clearRedraw => (⟨u.phase, Sys2Proof.Machine.clearRedraw u.block⟩, .done)
  | .readPixel px py => (u, .pixel (u.block.getPixel px py))

/-- A run: a finite sequence of host operations chosen by the host (R134). -/
def hostRun : List HostOp → Session → Session
  | [], u => u
  | o :: os, u => hostRun os (hostOp o u).1

end Sys2Proof.Machine
end

