-- ==== Sys2Proof/Safety.lean ====
section
/-!
DEFINITION. The terms claims use: the state invariant, the end conditions of a run (spec/40_execution_cycle.md R134), what an
instruction may write (spec/10_state.md R32), and what a state keeps of another.
-/

namespace Sys2Proof.Machine

/-! ## The invariant and the end conditions -/

/-- What holds of every state a session reaches: the configuration is sound, the memory is in canonical form (log 7), and a
faulted block is not waiting for a key (R267). -/
def State.Inv (s : State) : Prop :=
  s.cfg.wf = true ∧ Memory.wf s.cfg s.mem ∧ (s.fault.isSome = true → s.run = .running)

/-- The block is ready to run an instruction (R121). -/
def State.Ready (s : State) : Prop := s.fault = none ∧ s.run = .running

/-- A run has ended faulted (R134). -/
def State.Faulted (s : State) : Prop := s.fault ≠ none

/-- A run has ended waiting for a key (R134). -/
def State.Waiting (s : State) : Prop := ∃ r, s.run = .waitingForKey r

/-- A step that ends with `pc` equal to the address it fetched from (R134). DESIGN CHOICE (log 18): the test is R134's, and the
added `t.Ready` leaves out a fault of the fetch, whose `pc` has not moved either. A CALL or a RET whose target is its own address
passes the test, so it counts as spinning, though its later steps push or pop and end in a fault. -/
def State.Spins (s : State) : Prop := s.Ready ∧ ∃ t, step s = .next t ∧ t.pc = s.pc ∧ t.Ready

/-- A safe step: it answers a next state and records no fault. -/
def SafeStep (s : State) : Prop := ∃ t, step s = .next t ∧ t.fault = none

/-- The block is ready and the word at its `pc` decodes to `i`: its next step runs `i` (R121). -/
def State.Fetches (s : State) (i : Instr) : Prop := s.Ready ∧ ∃ op, fetch s = .ok op ∧ decodeWord op = .ok i

/-! ## What an instruction may write -/

/-- The registers an instruction's step writes: R32's table. FX0A's register is written later, by the key press. -/
def mayWriteV (i : Instr) (r : Reg) : Bool :=
  match i with
  | .ldImm x _ | .addImm x _ | .ldReg x _ | .orReg x _ | .andReg x _ | .xorReg x _ | .rnd x _ | .ldVxDT x => r == x
  | .addReg x _ | .subReg x _ | .subn x _ | .shr x | .shl x => r == VF || r == x
  | .drw _ _ _ => r == VF
  | .loadRegs x => decide (r ≤ x)
  | .cls | .ret | .jp _ | .call _ | .seImm _ _ | .sneImm _ _ | .seReg _ _ | .sneReg _ _ | .ldI _ | .jpV0 _ | .skp _ | .sknp _
  | .ldVxK _ | .ldDT _ | .ldST _ | .addI _ | .ldF _ | .ldB _ | .storeRegs _ => false

/-! ## What a state keeps of another -/

/-- Every general register outside `w` is unchanged. -/
def RegsKept (w : List Reg) (s t : State) : Prop := ∀ r, r ∉ w → t.getV r = s.getV r

/-- Every byte of memory is unchanged. -/
def BytesKept (s t : State) : Prop := ∀ a, t.readByte a = s.readByte a

/-- Every byte of memory outside the `n` bytes from `lo` is unchanged. -/
def BytesKeptOutside (lo n : Nat) (s t : State) : Prop := ∀ a, a < lo ∨ lo + n ≤ a → t.readByte a = s.readByte a

/-- The call stack is unchanged. -/
def StackKept (s t : State) : Prop := t.sp = s.sp ∧ ∀ k, t.getSlot k = s.getSlot k

/-- Both timers and the beep count are unchanged. -/
def TimersKept (s t : State) : Prop := t.dt = s.dt ∧ t.st = s.st ∧ t.beeps = s.beeps

/-- The framebuffer and the redraw flag are unchanged. -/
def DisplayKept (s t : State) : Prop := t.redraw = s.redraw ∧ ∀ px py, t.getPixel px py = s.getPixel px py

/-- The key latch is unchanged. -/
def KeysKept (s t : State) : Prop := ∀ k, t.getKey k = s.getKey k

/-- The run state and the recorded fault are unchanged. -/
def ControlKept (s t : State) : Prop := t.run = s.run ∧ t.fault = s.fault

/-- The model's own fields are unchanged: the configuration and the count of draws. -/
def EnvKept (s t : State) : Prop := t.cfg = s.cfg ∧ t.draws = s.draws

/-- Everything but the general registers, the memory, `I` and the recorded fault is unchanged, `pc` included. -/
def CoreKept (s t : State) : Prop :=
  t.pc = s.pc ∧ StackKept s t ∧ TimersKept s t ∧ DisplayKept s t ∧ KeysKept s t ∧ t.run = s.run ∧ EnvKept s t

/-- Everything but the general registers in `w` is unchanged. -/
def OnlyRegs (w : List Reg) (s t : State) : Prop :=
  RegsKept w s t ∧ t.i = s.i ∧ BytesKept s t ∧ CoreKept s t ∧ t.fault = s.fault

/-- Everything but `pc` is unchanged. -/
def OnlyPc (s t : State) : Prop :=
  RegsKept [] s t ∧ t.i = s.i ∧ BytesKept s t ∧ StackKept s t ∧ TimersKept s t ∧ DisplayKept s t ∧ KeysKept s t ∧
    ControlKept s t ∧ EnvKept s t

/-- Everything but `I` is unchanged. -/
def OnlyIndex (s t : State) : Prop := RegsKept [] s t ∧ BytesKept s t ∧ CoreKept s t ∧ t.fault = s.fault

/-- Everything but the memory is unchanged. -/
def OnlyMemory (s t : State) : Prop := RegsKept [] s t ∧ t.i = s.i ∧ CoreKept s t ∧ t.fault = s.fault

/-- Everything but the recorded fault is unchanged. -/
def OnlyFault (s t : State) : Prop := RegsKept [] s t ∧ t.i = s.i ∧ BytesKept s t ∧ CoreKept s t

/-! ## Results said once -/

/-- A fault of kind `f` is recorded. The address recorded with it is the one its step fetched from (R260), which
Obligations.RaisingStepDoesNotTick says of every step. -/
def Raised (f : Fault) (t : State) : Prop := ∃ a, t.fault = some ⟨f, a⟩

/-- A flag-writing instruction with destination `x` has left `flag` in VF and `result` in `x`, and changed nothing else; when
`x` is VF and VF_DEST_ORDER is flag_then_result, `result` is written last and stays (R166-R170, R177). -/
def FlagWritten (x : Reg) (flag result : Nat) (s t : State) : Prop :=
  (x ≠ VF → (t.getV x).toNat = result ∧ (t.getV VF).toNat = flag) ∧
  (x = VF → s.cfg.vfDestOrder = .flagThenResult → (t.getV VF).toNat = result) ∧
  OnlyRegs [x, VF] s t

/-- The bytes `val 0, …, val (n - 1)` have been stored at the addresses that `I, …, I + n - 1` reach, and every other byte is
unchanged (R63, R64, R72). -/
def BytesStored (n : Nat) (val : Nat → Byte) (s t : State) : Prop :=
  (∀ k < n, ∀ a, resolve s.cfg (effAddr s k) = .ok a → t.readByte a = val k) ∧
  (∀ a, (∀ k < n, resolve s.cfg (effAddr s k) ≠ .ok a) → t.readByte a = s.readByte a)

/-- The sprite drawn from `s` at `(cx, cy)` has, in row `k` and column `j`, the grid pixel `(px, py)` under sprite bit `bit`
(R214, R217). -/
def SpriteCell (s : State) (cx cy k j : Nat) (px : Fin 64) (py : Fin 32) (bit : Bool) : Prop :=
  target s.cfg (cx + j) (cy + k) = .ok (some (px, py)) ∧ ∃ b, memRead (effAddr s k) s = .ok b ∧ bit = spriteBit b j

/-- The cells `(k, j)` of the sprite, and no others, have been composed onto the grid: each of their pixels is XORed with its
sprite bit, and VF is 1 if one of them collided and 0 otherwise (R214, R218). -/
def SpriteComposed (cx cy : Nat) (cells : Nat → Nat → Prop) (s t : State) : Prop :=
  (∀ k j px py bit, cells k j → SpriteCell s cx cy k j px py bit → t.getPixel px py = (s.getPixel px py ^^ bit)) ∧
  (∀ px py, (∀ k j, cells k j → target s.cfg (cx + j) (cy + k) ≠ .ok (some (px, py))) →
    t.getPixel px py = s.getPixel px py) ∧
  ((∃ k j px py bit, cells k j ∧ SpriteCell s cx cy k j px py bit ∧ collides s.cfg (s.getPixel px py) bit = true) →
    t.getV VF = 1) ∧
  ((∀ k j px py bit, cells k j → SpriteCell s cx cy k j px py bit → collides s.cfg (s.getPixel px py) bit = false) →
    t.getV VF = 0)

/-- Row `k` of the sprite can be read and every column of it has a target (R214). -/
def RowDrawable (s : State) (cx cy k : Nat) : Prop :=
  (∃ b, memRead (effAddr s k) s = .ok b) ∧ ∀ j < 8, ∃ p, target s.cfg (cx + j) (cy + k) = .ok p

/-- A draw touches VF, the grid, `redraw` and the recorded fault, and nothing else. -/
def DrawFrame (s t : State) : Prop :=
  RegsKept [VF] s t ∧ t.i = s.i ∧ t.pc = s.pc ∧ BytesKept s t ∧ StackKept s t ∧ TimersKept s t ∧ KeysKept s t ∧
    t.run = s.run ∧ EnvKept s t

/-- A tick of both timers from `u` to `t`: each counts down by one with a floor of zero, and the sound timer's transition
from 1 to 0 beeps (R43, R44, R126). -/
def Ticked (u t : State) : Prop :=
  t.dt.toNat = u.dt.toNat - 1 ∧ t.st.toNat = u.st.toNat - 1 ∧
  t.beeps = (if u.st.toNat = 1 then u.beeps + 1 else u.beeps) ∧
  RegsKept [] u t ∧ t.pc = u.pc ∧ t.i = u.i ∧ BytesKept u t ∧ StackKept u t ∧ DisplayKept u t ∧ KeysKept u t ∧
  ControlKept u t ∧ EnvKept u t

end Sys2Proof.Machine
end

