-- ==== Sys2Proof/Certificates/Slice0/Obligations.lean ====
section
/-!
DEFINITION. The statements for the provers, from the numbered rules of spec/. OBLIGATIONS.json lists them.
-/

open Sys2Proof Sys2Proof.Machine

/-! ## Encoding (spec/30_encoding.md) -/

/-- Decoding the bytes of a well-formed instruction gives it back, with every operand at every value its field admits, and
leaves the bytes after it. -/
def Obligations.DecodeOfEncodeIsIdentity : Prop :=
  ∀ (i : Instr) (rest : List Byte), i.wf = true → decode (encodeBytes i ++ rest) = .ok (i, rest)

/-- R99: every word decodes to the instruction of exactly one row, with that row's fields (its encoding is the word less the
bits R97 and R98 ignore), or to UnknownOpcode and no row. The patterns are the spec's decision D27. -/
def Obligations.EveryWordDecodesToItsOneRow : Prop :=
  ∀ op : Word,
    (∃ i, decodeWord op = .ok i ∧ i.wf = true ∧ encode i = op &&& ~~~ignoredBits i ∧ rowOf i ∈ opcodeMap ∧
      ∀ r ∈ opcodeMap, (r.selects op = true ↔ r = rowOf i)) ∨
    (decodeWord op = .error (.unknownOpcode op) ∧ ∀ r ∈ opcodeMap, r.selects op = false)

/-- R95: the map has 34 rows, and no two rows select the same word. The patterns are the spec's decision D27. -/
def Obligations.NoTwoOpcodeRowsSelectOneWord : Prop :=
  opcodeMap.length = 34 ∧
  ∀ op : Word, ∀ r ∈ opcodeMap, ∀ q ∈ opcodeMap, r.selects op = true → q.selects op = true → r = q

/-- R96: the illegal words are exactly the listed ones. Family 0 follows the spec's decision D8. -/
def Obligations.IllegalWordsAreExactlyTheListed : Prop :=
  ∀ op : Word, decodeWord op = .error (.unknownOpcode op) ↔
    (op.toNat / 4096 = 0x0 ∧ op ≠ 0x00E0 ∧ op ≠ 0x00EE) ∨
    (op.toNat / 4096 = 0x8 ∧ op.toNat % 16 ∈ [0x8, 0x9, 0xA, 0xB, 0xC, 0xD, 0xF]) ∨
    (op.toNat / 4096 = 0xE ∧ op.toNat % 256 ∉ [0x9E, 0xA1]) ∨
    (op.toNat / 4096 = 0xF ∧ op.toNat % 256 ∉ [0x07, 0x0A, 0x15, 0x18, 0x1E, 0x29, 0x33, 0x55, 0x65])

/-- R101: the words the source prints, and one word of each other family, decode as their rows say. -/
def Obligations.PrintedWordsDecode : Prop :=
  decodeWord 0x00E0 = .ok .cls ∧ decodeWord 0x1FFF = .ok (.jp 0xFFF) ∧ decodeWord 0x6101 = .ok (.ldImm 1 0x01) ∧
  decodeWord 0x7101 = .ok (.addImm 1 0x01) ∧ decodeWord 0x0000 = .error (.unknownOpcode 0x0000) ∧
  decodeWord 0x8124 = .ok (.addReg 1 2) ∧ decodeWord 0xD125 = .ok (.drw 1 2 5) ∧ decodeWord 0xE19E = .ok (.skp 1) ∧
  decodeWord 0xF533 = .ok (.ldB 5)

/-! ## The step (spec/40_execution_cycle.md) -/

/-- R121: when the bytes at `pc` decode to `i`, the block's next step is the execution of `i` with `pc` advanced by 2,
followed by Tick unless the body raised. -/
def Obligations.StepRunsTheDecodedInstruction : Prop :=
  ∀ (s : State) (i : Instr) (a b : Nat), s.Ready →
    resolve s.cfg s.pc.toNat = .ok a → resolve s.cfg (s.pc.toNat + 1) = .ok b →
    decodeWord (wordOfBytes (s.readByte a) (s.readByte b)) = .ok i →
    s.Fetches i ∧
    ∀ u, exec i (s.setPc (s.pc + 2)) = .next u → step s = .next (if u.fault = none then tick u else u)

/-- R122: a fetch that reaches past the memory under MEM_OOB_POLICY = fault records MemoryOutOfRange of the first such byte
and changes nothing else, `pc` included. The policy is the spec's decision D5. -/
def Obligations.FetchPastMemoryFaults : Prop :=
  ∀ s : State, s.Ready → s.cfg.memOob = .fault → s.cfg.memSize ≤ s.pc.toNat + 1 →
    ∃ t, step s = .next t ∧ OnlyFault s t ∧
      t.fault = some ⟨.memoryOutOfRange (if s.cfg.memSize ≤ s.pc.toNat then s.pc.toNat else s.pc.toNat + 1), s.pc⟩

/-- R123: a word that decodes to nothing records UnknownOpcode with the raw word and changes nothing but `pc`, advanced.
The advance follows the spec's decision D9. -/
def Obligations.UnknownOpcodeChangesOnlyPc : Prop :=
  ∀ (s : State) (op : Word), s.Ready → fetch s = .ok op → decodeWord op = .error (.unknownOpcode op) →
    ∃ t, step s = .next t ∧ t.fault = some ⟨.unknownOpcode op, s.pc⟩ ∧ OnlyFault (s.setPc (s.pc + 2)) t

/-- R127: steps of a block that waits for a key change nothing, however many the host runs. -/
def Obligations.WaitingStepsChangeNothing : Prop :=
  ∀ (s : State) (r : Reg) (k : Nat), s.fault = none → s.run = .waitingForKey r →
    Host.Core.run Sys2Proof.core k s = .next s

/-- R129: a step of a faulted block returns the recorded fault and changes nothing.
That `step` answers it as Outcome.fault is the model's form (log 5). -/
def Obligations.FaultedStepReturnsItsFault : Prop :=
  ∀ (u : Session) (r : FaultRecord), u.block.fault = some r →
    step u.block = .fault r.kind ∧ hostOp .step u = (⟨.stepped, u.block⟩, .faulted r)

/-- R261, R263: a step that raises does not tick, records the address it fetched from, leaves `pc` at that address (a fetch
fault) or at that address plus 2, and leaves the stack, the keys, `I`, `run` and `redraw` alone.  `pc` after a fault and
`fetchedAt` follow the spec's decision D9. -/
def Obligations.RaisingStepDoesNotTick : Prop :=
  ∀ (s t : State) (r : FaultRecord), s.Ready → step s = .next t → t.fault = some r →
    r.fetchedAt = s.pc ∧ TimersKept s t ∧ StackKept s t ∧ KeysKept s t ∧ EnvKept s t ∧
    t.i = s.i ∧ t.run = .running ∧ t.redraw = s.redraw ∧
    (∀ f, fetch s = .error f → t.pc = s.pc ∧ r.kind = f) ∧ (∀ op, fetch s = .ok op → t.pc = s.pc + 2)

/-- R126: a step whose body completes ends with Tick: both timers count down by one with a floor of zero, and the sound
timer's transition from 1 to 0 beeps once. -/
def Obligations.CompletedStepTicks : Prop :=
  ∀ (s u : State) (i : Instr), s.Fetches i → exec i (s.setPc (s.pc + 2)) = .next u → u.fault = none →
    ∃ t, step s = .next t ∧ Ticked u t

/-- Every instruction answers a next state in every state, every step of a block with no fault answers one, and no step
refuses. That a step answers a recorded fault as Outcome.fault is the model's form (log 5). -/
def Obligations.EveryStepAnswers : Prop :=
  (∀ i s, ∃ t, exec i s = .next t) ∧ (∀ s : State, s.fault = none → ∃ t, step s = .next t) ∧
  (∀ (s : State) (f : Fault), step s = .fault f ↔ ∃ a, s.fault = some ⟨f, a⟩) ∧ (∀ (s : State) r, step s ≠ .refused r)

/-- R35: where each instruction leaves `pc`. `pc` after a fault follows the spec's decision D9. -/
def Obligations.PcAfterEachInstruction : Prop :=
  ∀ (s t : State) (i : Instr), s.Fetches i → step s = .next t →
    (t.fault ≠ none → t.pc = s.pc + 2) ∧
    (t.fault = none →
      match i with
      | .jp nnn | .call nnn => t.pc.toNat = nnn.toNat
      | .ret => ∃ k : Fin 16, k.val + 1 = s.sp.val ∧ t.pc = s.getSlot k
      | .jpV0 nnn => t.pc.toNat = nnn.toNat + (s.getV 0).toNat
      | .seImm x kk => t.pc = if s.getV x = kk then s.pc + 4 else s.pc + 2
      | .sneImm x kk => t.pc = if s.getV x ≠ kk then s.pc + 4 else s.pc + 2
      | .seReg x y => t.pc = if s.getV x = s.getV y then s.pc + 4 else s.pc + 2
      | .sneReg x y => t.pc = if s.getV x ≠ s.getV y then s.pc + 4 else s.pc + 2
      | .skp x => ∃ k : Fin 16, k.val = (s.getV x).toNat ∧ t.pc = if s.getKey k = true then s.pc + 4 else s.pc + 2
      | .sknp x => ∃ k : Fin 16, k.val = (s.getV x).toNat ∧ t.pc = if s.getKey k = false then s.pc + 4 else s.pc + 2
      | .cls | .ldImm _ _ | .addImm _ _ | .ldReg _ _ | .orReg _ _ | .andReg _ _ | .xorReg _ _ | .addReg _ _ | .subReg _ _
      | .shr _ | .subn _ _ | .shl _ | .ldI _ | .rnd _ _ | .drw _ _ _ | .ldVxDT _ | .ldVxK _ | .ldDT _ | .ldST _ | .addI _
      | .ldF _ | .ldB _ | .storeRegs _ | .loadRegs _ => t.pc = s.pc + 2)

/-! ## Invariants -/

/-- Every step keeps the invariant: memory in canonical form, a sound configuration, and no faulted block waiting for a key.
What it says of the configuration is log 4, and of the memory's form log 7. -/
def Obligations.StepKeepsInvariant : Prop := ∀ s t : State, s.Inv → step s = .next t → t.Inv

/-- The block right after construction meets the invariant (logs 4 and 7 say what it asks of configuration and memory). -/
def Obligations.ResetMeetsInvariant : Prop := State.reset.Inv

/-- Every state a session reaches, by any sequence of host operations from its launch with any sound configuration and any
image, meets the invariant.  What the invariant says of the configuration is log 4, and of the memory's form log 7. -/
def Obligations.EverySessionStateMeetsInvariant : Prop :=
  ∀ (c : Config) (bytes : List Byte) (ops : List HostOp) (u : Session), c.wf = true → Session.launch c bytes = .next u →
    (hostRun ops u).block.Inv

/-- Every host operation keeps the invariant, from every session whose block meets it, reached by a launch or not.  What the
invariant says of the configuration is log 4, and of the memory's form log 7. -/
def Obligations.HostOperationsKeepInvariant : Prop :=
  ∀ (o : HostOp) (u : Session), u.block.Inv → (hostOp o u).1.block.Inv

/-! ## Memory (spec/20_memory.md) -/

/-- R63: a byte written is read back at once, by every address that reaches it, and nothing else changes. -/
def Obligations.ReadAfterWriteGivesTheByte : Prop :=
  ∀ (s : State) (addr a : Nat) (v : Byte), resolve s.cfg addr = .ok a →
    ∃ t, memWrite addr v s = .done t ∧ OnlyMemory s t ∧ BytesKeptOutside a 1 s t ∧
      (∀ q, resolve s.cfg q = .ok a → memRead q t = .ok v) ∧
      (∀ q, resolve s.cfg q ≠ .ok a → memRead q t = memRead q s)

/-- R64: each byte access checks its own address, and an address of MEM_SIZE or more follows MEM_OOB_POLICY.
The parameter is the spec's decision D5. -/
def Obligations.OutOfRangeFollowsThePolicy : Prop :=
  ∀ (s : State) (addr : Nat) (v : Byte),
    (addr < s.cfg.memSize → memRead addr s = .ok (s.readByte addr) ∧ memWrite addr v s = .done (s.putByte addr v)) ∧
    (s.cfg.memSize ≤ addr → s.cfg.memOob = .fault →
      memRead addr s = .error (.memoryOutOfRange addr) ∧ memWrite addr v s = .raised (.memoryOutOfRange addr) s) ∧
    (s.cfg.memSize ≤ addr → s.cfg.memOob = .wrap →
      memRead addr s = .ok (s.readByte (addr % s.cfg.memSize)) ∧
      memWrite addr v s = .done (s.putByte (addr % s.cfg.memSize) v))

/-- R61: a word is read big-endian, the high byte first, and a fault of either byte is that byte's own. -/
def Obligations.WordsAreReadBigEndian : Prop :=
  ∀ (s : State) (addr : Nat),
    (∀ hi lo, memRead addr s = .ok hi → memRead (addr + 1) s = .ok lo →
      ∃ w, memReadWord addr s = .ok w ∧ w.toNat = hi.toNat * 256 + lo.toNat) ∧
    (∀ f, memRead addr s = .error f → memReadWord addr s = .error f) ∧
    (∀ hi f, memRead addr s = .ok hi → memRead (addr + 1) s = .error f → memReadWord addr s = .error f)

/-- R75: a word stored where `pc` points, by byte writes, is the word the next fetch reads. -/
def Obligations.StoredWordIsFetched : Prop :=
  ∀ (s t : State) (w : Word), s.cfg.wf = true → memWriteWord s.pc.toNat w s = .done t → fetch t = .ok w

/-! ## Construction and load (spec/70_reset_and_hazards.md) -/

/-- R54, R39: every state element the spec gives a value has it right after construction.
Several of the values are the spec's decisions (D2, D3, D13, D34). -/
def Obligations.ResetHasTheConstructionValues : Prop :=
  (∀ r, State.reset.getV r = 0) ∧ State.reset.i = 0 ∧ State.reset.pc = 0x200 ∧ State.reset.sp = 0 ∧
  State.reset.dt = 0 ∧ State.reset.st = 0 ∧ (∀ k, State.reset.getKey k = false) ∧
  (∀ px py, State.reset.getPixel px py = false) ∧ State.reset.redraw = false ∧ State.reset.run = .running ∧
  State.reset.fault = none ∧ State.reset.beeps = 0 ∧
  (List.range 80).map State.reset.readByte =
    [0xF0, 0x90, 0x90, 0x90, 0xF0, 0x20, 0x60, 0x20, 0x20, 0x70, 0xF0, 0x10, 0xF0, 0x80, 0xF0, 0xF0, 0x10, 0xF0, 0x10, 0xF0] ++
    [0x90, 0x90, 0xF0, 0x10, 0x10, 0xF0, 0x80, 0xF0, 0x10, 0xF0, 0xF0, 0x80, 0xF0, 0x90, 0xF0, 0xF0, 0x10, 0x20, 0x40, 0x40] ++
    [0xF0, 0x90, 0xF0, 0x90, 0xF0, 0xF0, 0x90, 0xF0, 0x10, 0xF0, 0xF0, 0x90, 0xF0, 0x90, 0x90, 0xE0, 0x90, 0xE0, 0x90, 0xE0] ++
    [0xF0, 0x80, 0x80, 0x80, 0xF0, 0xE0, 0x90, 0x90, 0x90, 0xE0, 0xF0, 0x80, 0xF0, 0x80, 0xF0, 0xF0, 0x80, 0xF0, 0x80, 0x80] ∧
  (∀ a, 80 ≤ a → a < 4096 → State.reset.readByte a = 0)

/-- R293: `loadProgram` copies the image from PROG_START and changes nothing else; a larger image is refused.
The refusal is the spec's decision D26. -/
def Obligations.LoadProgramCopiesTheImage : Prop :=
  ∀ (s : State) (bytes : List Byte),
    (bytes.length ≤ s.cfg.memSize - s.cfg.progStart.toNat →
      ∃ t, loadProgram bytes s = .next t ∧ OnlyMemory s t ∧
        (∀ (k : Nat) (h : k < bytes.length), t.readByte (s.cfg.progStart.toNat + k) = bytes[k]) ∧
        BytesKeptOutside s.cfg.progStart.toNat bytes.length s t) ∧
    (s.cfg.memSize - s.cfg.progStart.toNat < bytes.length → loadProgram bytes s = .refused (.imageTooLarge bytes.length))

/-- R294: a launch with an image that fits constructs the block and loads the image, and nothing else; one with a longer image
is refused; and a launched session admits no other load, whose refusal before the first step is the model's (log 10).  The other
refusals are the spec's decision D26. -/
def Obligations.LaunchConstructsAndLoads : Prop :=
  (∀ (c : Config) (bytes : List Byte),
    (bytes.length ≤ c.memSize - c.progStart.toNat → ∃ t, Session.launch c bytes = .next ⟨.loaded, t⟩ ∧
      loadProgram bytes (State.construct c) = .next t ∧ OnlyMemory (State.construct c) t ∧
      (∀ (k : Nat) (h : k < bytes.length), t.readByte (c.progStart.toNat + k) = bytes[k]) ∧
      BytesKeptOutside c.progStart.toNat bytes.length (State.construct c) t) ∧
    (c.memSize - c.progStart.toNat < bytes.length → Session.launch c bytes = .refused (.imageTooLarge bytes.length))) ∧
  (∀ (t : State) (bytes : List Byte), hostOp (.loadProgram bytes) ⟨.loaded, t⟩ = (⟨.loaded, t⟩, .notAdmitted .loadTwice))

/-- R294: once a step has been taken, and ever after, a load is refused and changes nothing.
The refusal is the spec's decision D26. -/
def Obligations.NoLoadAfterTheFirstStep : Prop :=
  ∀ (u : Session) (ops : List HostOp) (bytes : List Byte),
    let w := hostRun ops (hostOp .step u).1
    hostOp (.loadProgram bytes) w = (w, .notAdmitted .loadAfterStep)

/-! ## Control flow (spec/41_control_flow.md) -/

/-- R141, R147: the jumps set `pc` to `nnn`, and to `nnn + V0` unreduced, and change nothing else. -/
def Obligations.JumpsSetPc : Prop :=
  ∀ (s : State) (nnn : BitVec 12),
    (∃ t, exec (.jp nnn) s = .next t ∧ t.pc.toNat = nnn.toNat ∧ OnlyPc s t) ∧
    (∃ t, exec (.jpV0 nnn) s = .next t ∧ t.pc.toNat = nnn.toNat + (s.getV 0).toNat ∧ OnlyPc s t)

/-- R142: CALL pushes the already-advanced `pc` and jumps; with a full stack its step raises StackOverflow with the address it
could not push, and only `pc` has moved, past the CALL. -/
def Obligations.CallPushesTheReturnAddress : Prop :=
  ∀ (s : State) (nnn : BitVec 12),
    (s.sp.val < 16 → ∃ t, exec (.call nnn) s = .next t ∧ t.pc.toNat = nnn.toNat ∧ t.sp.val = s.sp.val + 1 ∧
      (∀ k : Fin 16, t.getSlot k = if k.val = s.sp.val then s.pc else s.getSlot k) ∧
      RegsKept [] s t ∧ t.i = s.i ∧ BytesKept s t ∧ TimersKept s t ∧ DisplayKept s t ∧ KeysKept s t ∧ ControlKept s t ∧
      EnvKept s t) ∧
    (s.sp.val = 16 → s.Fetches (.call nnn) → ∃ t, step s = .next t ∧ OnlyFault (s.setPc (s.pc + 2)) t ∧
      t.fault = some ⟨.stackOverflow (s.pc + 2), s.pc⟩)

/-- R140: RET pops the return address into `pc`; with an empty stack its step raises StackUnderflow, and only `pc` has moved,
past the RET. -/
def Obligations.ReturnPopsIntoPc : Prop :=
  ∀ s : State,
    (∀ k : Fin 16, s.sp.val = k.val + 1 → ∃ t, exec .ret s = .next t ∧ t.pc = s.getSlot k ∧ t.sp.val = k.val ∧
      (∀ q, t.getSlot q = s.getSlot q) ∧
      RegsKept [] s t ∧ t.i = s.i ∧ BytesKept s t ∧ TimersKept s t ∧ DisplayKept s t ∧ KeysKept s t ∧ ControlKept s t ∧
      EnvKept s t) ∧
    (s.sp.val = 0 → s.Fetches .ret → ∃ t, step s = .next t ∧ OnlyFault (s.setPc (s.pc + 2)) t ∧
      t.fault = some ⟨.stackUnderflow, s.pc⟩)

/-- R148: a RET reached with `sp` and the pushed entry as the CALL left them returns to the address after the call, with `sp`
as before it. -/
def Obligations.CallThenReturnRoundTrip : Prop :=
  ∀ (s t u : State) (nnn : BitVec 12) (k : Fin 16), s.sp.val = k.val → exec (.call nnn) s = .next t →
    u.sp = t.sp → u.getSlot k = t.getSlot k →
    ∃ w, exec .ret u = .next w ∧ w.pc = s.pc ∧ w.sp = s.sp

/-- R143-R146, R128: each skip adds 2 to `pc` when its condition holds, and changes nothing else. -/
def Obligations.SkipsAddTwoToPc : Prop :=
  ∀ (s : State) (x y : Reg) (kk : Byte),
    (∃ t, exec (.seImm x kk) s = .next t ∧ t.pc = (if s.getV x = kk then s.pc + 2 else s.pc) ∧ OnlyPc s t) ∧
    (∃ t, exec (.sneImm x kk) s = .next t ∧ t.pc = (if s.getV x = kk then s.pc else s.pc + 2) ∧ OnlyPc s t) ∧
    (∃ t, exec (.seReg x y) s = .next t ∧ t.pc = (if s.getV x = s.getV y then s.pc + 2 else s.pc) ∧ OnlyPc s t) ∧
    (∃ t, exec (.sneReg x y) s = .next t ∧ t.pc = (if s.getV x = s.getV y then s.pc else s.pc + 2) ∧ OnlyPc s t)

/-- R240, R241: the key skips test the latch cell Vx names; when Vx is 16 or more their step raises KeyIndexOutOfRange (the
spec's decision D7), and only `pc` has moved, past the instruction. -/
def Obligations.KeySkipsTestTheLatch : Prop :=
  ∀ (s : State) (x : Reg),
    (∀ k : Fin 16, (s.getV x).toNat = k.val →
      (∃ t, exec (.skp x) s = .next t ∧ t.pc = (if s.getKey k = true then s.pc + 2 else s.pc) ∧ OnlyPc s t) ∧
      (∃ t, exec (.sknp x) s = .next t ∧ t.pc = (if s.getKey k = true then s.pc else s.pc + 2) ∧ OnlyPc s t)) ∧
    (16 ≤ (s.getV x).toNat → s.Fetches (.skp x) ∨ s.Fetches (.sknp x) →
      ∃ t, step s = .next t ∧ OnlyFault (s.setPc (s.pc + 2)) t ∧ t.fault = some ⟨.keyIndexOutOfRange (s.getV x), s.pc⟩)

/-! ## Registers and ALU (spec/42_register_alu.md) -/

/-- R160-R165: loads, the immediate add and the bitwise operations write Vx and no flag. -/
def Obligations.LoadsAndBitwiseWriteOnlyVx : Prop :=
  ∀ (s : State) (x y : Reg) (kk : Byte),
    (∃ t, exec (.ldImm x kk) s = .next t ∧ t.getV x = kk ∧ OnlyRegs [x] s t) ∧
    (∃ t, exec (.addImm x kk) s = .next t ∧ (t.getV x).toNat = ((s.getV x).toNat + kk.toNat) % 256 ∧ OnlyRegs [x] s t) ∧
    (∃ t, exec (.ldReg x y) s = .next t ∧ t.getV x = s.getV y ∧ OnlyRegs [x] s t) ∧
    (∃ t, exec (.orReg x y) s = .next t ∧ t.getV x = s.getV x ||| s.getV y ∧ OnlyRegs [x] s t) ∧
    (∃ t, exec (.andReg x y) s = .next t ∧ t.getV x = s.getV x &&& s.getV y ∧ OnlyRegs [x] s t) ∧
    (∃ t, exec (.xorReg x y) s = .next t ∧ t.getV x = s.getV x ^^^ s.getV y ∧ OnlyRegs [x] s t)

/-- R166: ADD Vx, Vy leaves the sum modulo 256 and the carry. -/
def Obligations.AddLeavesSumAndCarry : Prop :=
  ∀ (s : State) (x y : Reg), ∃ t, exec (.addReg x y) s = .next t ∧
    FlagWritten x (if (s.getV x).toNat + (s.getV y).toNat > 255 then 1 else 0)
      (((s.getV x).toNat + (s.getV y).toNat) % 256) s t

/-- R167, R169: SUB and SUBN leave the difference modulo 256 and the strict not-borrow flag. -/
def Obligations.SubtractsLeaveDifferenceAndNotBorrow : Prop :=
  ∀ (s : State) (x y : Reg),
    (∃ t, exec (.subReg x y) s = .next t ∧
      FlagWritten x (if (s.getV x).toNat > (s.getV y).toNat then 1 else 0)
        ((((s.getV x).toNat : Int) - ((s.getV y).toNat : Int)) % 256).toNat s t) ∧
    (∃ t, exec (.subn x y) s = .next t ∧
      FlagWritten x (if (s.getV y).toNat > (s.getV x).toNat then 1 else 0)
        ((((s.getV y).toNat : Int) - ((s.getV x).toNat : Int)) % 256).toNat s t)

/-- R168, R170: SHR leaves the half and the bit shifted out as 0 or 1; SHL leaves the double modulo 256 and the raw bit 7 as
0 or 128. That the source is Vx is the spec's decision D10. -/
def Obligations.ShiftsLeaveTheBitShiftedOut : Prop :=
  ∀ (s : State) (x : Reg),
    (∃ t, exec (.shr x) s = .next t ∧ FlagWritten x ((s.getV x).toNat % 2) ((s.getV x).toNat / 2) s t) ∧
    (∃ t, exec (.shl x) s = .next t ∧
      FlagWritten x (if (s.getV x).toNat ≥ 128 then 128 else 0) ((s.getV x).toNat * 2 % 256) s t)

/-- R179: when the destination is VF, the write that VF_DEST_ORDER puts last stays: the result under flag_then_result, the flag
under result_then_flag.  The order is the spec's decision D12. -/
def Obligations.DestinationVfFollowsTheOrder : Prop :=
  ∀ (s : State) (i : Instr) (flag result : Byte),
    ((∃ y, i = .addReg VF y ∧ result.toNat = ((s.getV VF).toNat + (s.getV y).toNat) % 256 ∧
        flag.toNat = ((s.getV VF).toNat + (s.getV y).toNat) / 256) ∨
      (∃ y, i = .subReg VF y ∧ result = s.getV VF - s.getV y ∧
        flag = if (s.getV y).toNat < (s.getV VF).toNat then 1 else 0) ∨
      (∃ y, i = .subn VF y ∧ result = s.getV y - s.getV VF ∧
        flag = if (s.getV VF).toNat < (s.getV y).toNat then 1 else 0) ∨
      (i = .shr VF ∧ result.toNat = (s.getV VF).toNat / 2 ∧ flag = s.getV VF &&& 0x01) ∨
      (i = .shl VF ∧ result.toNat = (s.getV VF).toNat * 2 % 256 ∧ flag = s.getV VF &&& 0x80)) →
    ∃ t, exec i s = .next t ∧ OnlyRegs [VF] s t ∧
      t.getV VF = (match s.cfg.vfDestOrder with | .flagThenResult => result | .resultThenFlag => flag)

/-- R175: RND leaves the environment's draw masked by kk, whatever the draw is; bits outside kk are 0, and nothing but Vx and
the count of draws changes.  The draw is a free value (log 2): nothing here rests on which byte it is. -/
def Obligations.RandomIsTheMaskedDraw : Prop :=
  ∀ (s : State) (x : Reg) (kk : Byte), ∃ t, exec (.rnd x kk) s = .next t ∧
    t.getV x = Config.randByte s.draws &&& kk ∧ t.getV x &&& ~~~kk = 0 ∧
    RegsKept [x] s t ∧ t.i = s.i ∧ t.pc = s.pc ∧ BytesKept s t ∧ StackKept s t ∧ TimersKept s t ∧ DisplayKept s t ∧
    KeysKept s t ∧ ControlKept s t ∧ t.cfg = s.cfg ∧ t.draws = s.draws + 1

/-- R32: no instruction writes a general register that R32's table does not give it. -/
def Obligations.InstructionsWriteOnlyTheirRegisters : Prop :=
  ∀ (i : Instr) (s t : State) (r : Reg), exec i s = .next t → mayWriteV i r = false → t.getV r = s.getV r

/-! ## Index and memory (spec/43_index_memory.md) -/

/-- R190, R192, R193: the index instructions write `I` and nothing else.
The reduction of FX1E and the font at 0 are the spec's decisions D14 and D3. -/
def Obligations.IndexInstructionsWriteOnlyI : Prop :=
  ∀ (s : State) (x : Reg) (nnn : BitVec 12),
    (∃ t, exec (.ldI nnn) s = .next t ∧ t.i.toNat = nnn.toNat ∧ OnlyIndex s t) ∧
    (∃ t, exec (.addI x) s = .next t ∧ t.i.toNat = (s.i.toNat + (s.getV x).toNat) % 65536 ∧ OnlyIndex s t) ∧
    (∃ t, exec (.ldF x) s = .next t ∧ t.i.toNat = (s.getV x).toNat * 5 ∧ OnlyIndex s t)

/-- R194, R191: LD B stores the hundreds, tens and ones of Vx at `I`, `I + 1`, `I + 2`; a byte out of reach ends it with the
bytes before it stored. -/
def Obligations.BcdStoresThreeDigits : Prop :=
  ∀ (s : State) (x : Reg) (digit : Nat → Byte), s.cfg.wf = true →
    (digit 0).toNat = (s.getV x).toNat / 100 → (digit 1).toNat = (s.getV x).toNat / 10 % 10 →
    (digit 2).toNat = (s.getV x).toNat % 10 →
    ((∀ k < 3, ∃ a, resolve s.cfg (effAddr s k) = .ok a) →
      ∃ t, exec (.ldB x) s = .next t ∧ BytesStored 3 digit s t ∧ OnlyMemory s t) ∧
    (∀ k < 3, ∀ f, (∀ j < k, ∃ a, resolve s.cfg (effAddr s j) = .ok a) → resolve s.cfg (effAddr s k) = .error f →
      ∃ t, exec (.ldB x) s = .next t ∧ BytesStored k digit s t ∧ Raised f t ∧
        RegsKept [] s t ∧ t.i = s.i ∧ CoreKept s t)

/-- R195, R191: LD [I], Vx stores V0..Vx from `I` on; a byte out of reach ends it with the bytes before it stored. -/
def Obligations.StoreRegistersWritesV0ToVx : Prop :=
  ∀ (s : State) (x : Reg) (val : Nat → Byte), s.cfg.wf = true → (∀ r : Reg, r ≤ x → val r.val = s.getV r) →
    ((∀ k ≤ x.val, ∃ a, resolve s.cfg (effAddr s k) = .ok a) →
      ∃ t, exec (.storeRegs x) s = .next t ∧ BytesStored (x.val + 1) val s t ∧ OnlyMemory s t) ∧
    (∀ k ≤ x.val, ∀ f, (∀ j < k, ∃ a, resolve s.cfg (effAddr s j) = .ok a) → resolve s.cfg (effAddr s k) = .error f →
      ∃ t, exec (.storeRegs x) s = .next t ∧ BytesStored k val s t ∧ Raised f t ∧
        RegsKept [] s t ∧ t.i = s.i ∧ CoreKept s t)

/-- R196, R191: LD Vx, [I] loads V0..Vx from `I` on; a byte out of reach ends it with the registers before it loaded. -/
def Obligations.LoadRegistersReadsV0ToVx : Prop :=
  ∀ (s : State) (x : Reg),
    ((∀ k ≤ x.val, ∃ b, memRead (effAddr s k) s = .ok b) →
      ∃ t, exec (.loadRegs x) s = .next t ∧ (∀ r : Reg, r ≤ x → memRead (effAddr s r.val) s = .ok (t.getV r)) ∧
        (∀ r : Reg, x < r → t.getV r = s.getV r) ∧ t.i = s.i ∧ BytesKept s t ∧ CoreKept s t ∧ t.fault = s.fault) ∧
    (∀ k : Reg, k ≤ x → ∀ f, (∀ j < k.val, ∃ b, memRead (effAddr s j) s = .ok b) → memRead (effAddr s k.val) s = .error f →
      ∃ t, exec (.loadRegs x) s = .next t ∧ (∀ r : Reg, r < k → memRead (effAddr s r.val) s = .ok (t.getV r)) ∧
        (∀ r : Reg, k ≤ r → t.getV r = s.getV r) ∧ Raised f t ∧ t.i = s.i ∧ BytesKept s t ∧ CoreKept s t)

/-! ## Display (spec/44_display.md) -/

/-- R215: CLS clears every pixel, sets `redraw` and changes nothing else, VF included. -/
def Obligations.ClearScreenClearsEveryPixel : Prop :=
  ∀ s : State, ∃ t, exec .cls s = .next t ∧ (∀ px py, t.getPixel px py = false) ∧ t.redraw = true ∧
    RegsKept [] s t ∧ t.i = s.i ∧ t.pc = s.pc ∧ BytesKept s t ∧ StackKept s t ∧ TimersKept s t ∧ KeysKept s t ∧
    ControlKept s t ∧ EnvKept s t

/-- R217: `Target` is the coordinate itself on the grid, and off it follows OFFSCREEN_POLICY.
The parameter is the spec's decision D6. -/
def Obligations.TargetFollowsTheOffscreenPolicy : Prop :=
  ∀ (c : Config) (px py : Nat),
    (∀ (qx : Fin 64) (qy : Fin 32), qx.val = px → qy.val = py → target c px py = .ok (some (qx, qy))) ∧
    (64 ≤ px ∨ 32 ≤ py →
      (c.offscreen = .fault → target c px py = .error (.pixelOutOfRange px py)) ∧
      (c.offscreen = .clip → target c px py = .ok none) ∧
      (c.offscreen = .wrap → ∀ (qx : Fin 64) (qy : Fin 32), qx.val = px % 64 → qy.val = py % 32 →
        target c px py = .ok (some (qx, qy))))

/-- R218: `Collides` is the pixel under any_lit_pixel, and the pixel and the sprite bit under lit_and_sprite_bit.
The parameter is the spec's decision D35. -/
def Obligations.CollisionFollowsTheRule : Prop :=
  ∀ (c : Config) (p b : Bool),
    (c.collision = .anyLitPixel → (collides c p b = true ↔ p = true)) ∧
    (c.collision = .litAndSpriteBit → (collides c p b = true ↔ p = true ∧ b = true))

/-- R10, R214: sprite column `j` is bit `7 - j` of the row's byte, the most significant bit first. -/
def Obligations.SpriteColumnsRunFromBitSeven : Prop :=
  ∀ (b : Byte) (j : Nat), j < 8 → (spriteBit b j = true ↔ b.toNat / 2 ^ (7 - j) % 2 = 1)

/-- R214: a draw whose rows can all be read and whose pixels all have a target XORs the sprite onto the grid, leaves the
collision in VF, sets `redraw` and changes nothing else.  `n = 0` draws nothing, clears VF and sets `redraw`.
D6, D11 and D35 are the spec's decisions. -/
def Obligations.DrawComposesTheSprite : Prop :=
  ∀ (s : State) (x y : Reg) (n : Nat), n ≤ 15 →
    (∀ k < n, RowDrawable s (s.getV x).toNat (s.getV y).toNat k) →
    ∃ t, exec (.drw x y n) s = .next t ∧ t.redraw = true ∧ t.fault = s.fault ∧ DrawFrame s t ∧
      SpriteComposed (s.getV x).toNat (s.getV y).toNat (fun k j => k < n ∧ j < 8) s t

/-- R214, R263: a draw that raises leaves the cells before the raise composed, VF as far as the draw got and `redraw` not
set by it: at a row that cannot be read, or at a pixel with no target. D6, D11, D33 and D35 are the spec's decisions. -/
def Obligations.DrawFaultKeepsWhatWasDrawn : Prop :=
  ∀ (s : State) (x y : Reg) (n k : Nat), n ≤ 15 → k < n →
    (∀ i < k, RowDrawable s (s.getV x).toNat (s.getV y).toNat i) →
    (∀ f, memRead (effAddr s k) s = .error f →
      ∃ t, exec (.drw x y n) s = .next t ∧ Raised f t ∧ t.redraw = s.redraw ∧ DrawFrame s t ∧
        SpriteComposed (s.getV x).toNat (s.getV y).toNat (fun i j => i < k ∧ j < 8) s t) ∧
    (∀ b j f, memRead (effAddr s k) s = .ok b → j < 8 →
      (∀ i < j, ∃ p, target s.cfg ((s.getV x).toNat + i) ((s.getV y).toNat + k) = .ok p) →
      target s.cfg ((s.getV x).toNat + j) ((s.getV y).toNat + k) = .error f →
      ∃ t, exec (.drw x y n) s = .next t ∧ Raised f t ∧ t.redraw = s.redraw ∧ DrawFrame s t ∧
        SpriteComposed (s.getV x).toNat (s.getV y).toNat (fun i c => i < k ∧ c < 8 ∨ i = k ∧ c < j) s t)

/-- Drawing the same sprite twice at the same place restores the framebuffer, by R214's algorithm, and leaves VF = 1 if a lit
sprite bit has a pixel that was off before the first draw.  That condition is the model's reading (log 16, DEDUCED): R214's own
sentence gives VF = 1 "provided the sprite has a lit bit", which over a pixel that was on its algorithm does not. -/
def Obligations.DrawingTwiceRestoresTheScreen : Prop :=
  ∀ (s t : State) (x y : Reg) (n : Nat), n ≤ 15 → x ≠ VF → y ≠ VF →
    (∀ k < n, RowDrawable s (s.getV x).toNat (s.getV y).toNat k) → exec (.drw x y n) s = .next t →
    ∃ u, exec (.drw x y n) t = .next u ∧ (∀ px py, u.getPixel px py = s.getPixel px py) ∧
      ((∃ k j px py, k < n ∧ j < 8 ∧ SpriteCell s (s.getV x).toNat (s.getV y).toNat k j px py true ∧
        s.getPixel px py = false) → u.getV VF = 1)

/-! ## Keys and timers (spec/45_keys_timers.md) -/

/-- The body of FX07 reads DT into Vx, and those of FX15 and FX18 write DT and ST from Vx, before the step's tick. -/
def Obligations.TimerInstructionsMoveTheTimers : Prop :=
  ∀ (s : State) (x : Reg),
    (∃ t, exec (.ldVxDT x) s = .next t ∧ t.getV x = s.dt ∧ OnlyRegs [x] s t) ∧
    (∃ t, exec (.ldDT x) s = .next t ∧ t.dt = s.getV x ∧ t.st = s.st ∧ t.beeps = s.beeps ∧ t.pc = s.pc ∧
      RegsKept [] s t ∧ t.i = s.i ∧ BytesKept s t ∧ StackKept s t ∧ DisplayKept s t ∧ KeysKept s t ∧ ControlKept s t ∧
      EnvKept s t) ∧
    (∃ t, exec (.ldST x) s = .next t ∧ t.st = s.getV x ∧ t.dt = s.dt ∧ t.beeps = s.beeps ∧ t.pc = s.pc ∧
      RegsKept [] s t ∧ t.i = s.i ∧ BytesKept s t ∧ StackKept s t ∧ DisplayKept s t ∧ KeysKept s t ∧ ControlKept s t ∧
      EnvKept s t)

/-- R248, R250, R251: over the whole step, FX07 reads DT before the tick, FX15 ends with DT one less than Vx (floor 0), and
FX18 ends with ST one less than Vx (floor 0) and beeps exactly when Vx is 1. -/
def Obligations.TimersTickInTheStepThatUsesThem : Prop :=
  ∀ (s : State) (x : Reg),
    (s.Fetches (.ldVxDT x) → ∃ t, step s = .next t ∧ t.getV x = s.dt ∧ t.dt.toNat = s.dt.toNat - 1 ∧ t.pc = s.pc + 2) ∧
    (s.Fetches (.ldDT x) → ∃ t, step s = .next t ∧ t.dt.toNat = (s.getV x).toNat - 1 ∧ t.pc = s.pc + 2) ∧
    (s.Fetches (.ldST x) → ∃ t, step s = .next t ∧ t.st.toNat = (s.getV x).toNat - 1 ∧
      t.beeps = (if (s.getV x).toNat = 1 then s.beeps + 1 else s.beeps) ∧ t.pc = s.pc + 2)

/-- R249: FX0A enters WaitingForKey and changes nothing else; its step still ticks. The tick is the spec's decision D16. -/
def Obligations.WaitForKeyEntersTheWait : Prop :=
  ∀ (s : State) (x : Reg),
    (∃ t, exec (.ldVxK x) s = .next t ∧ t.run = .waitingForKey x ∧ t.fault = s.fault ∧ t.pc = s.pc ∧ RegsKept [] s t ∧
      t.i = s.i ∧ BytesKept s t ∧ StackKept s t ∧ TimersKept s t ∧ DisplayKept s t ∧ KeysKept s t ∧ EnvKept s t) ∧
    (s.Fetches (.ldVxK x) → ∃ t, step s = .next t ∧ t.run = .waitingForKey x ∧ t.pc = s.pc + 2 ∧ RegsKept [] s t ∧
      t.dt.toNat = s.dt.toNat - 1 ∧ t.st.toNat = s.st.toNat - 1)

/-- R245, R246: a press sets its latch cell and ends a wait, giving the pending register the key's index; a release clears
its cell and does nothing else; an index of 16 or more is not admitted (D18). -/
def Obligations.KeyEventsSetTheLatchAndEndTheWait : Prop :=
  ∀ (u : Session) (k : Nat),
    (∀ q : Fin 16, q.val = k →
      ∃ t, hostOp (.pressKey k) u = (⟨u.phase, t⟩, .done) ∧ t.getKey q = true ∧ (∀ c, c ≠ q → t.getKey c = u.block.getKey c) ∧
        t.run = .running ∧
        (∀ r, u.block.run = .waitingForKey r → (t.getV r).toNat = k ∧ RegsKept [r] u.block t) ∧
        (u.block.run = .running → RegsKept [] u.block t) ∧
        t.pc = u.block.pc ∧ t.i = u.block.i ∧ BytesKept u.block t ∧ StackKept u.block t ∧ TimersKept u.block t ∧
        DisplayKept u.block t ∧ t.fault = u.block.fault ∧ EnvKept u.block t) ∧
    (∀ q : Fin 16, q.val = k →
      ∃ t, hostOp (.releaseKey k) u = (⟨u.phase, t⟩, .done) ∧ t.getKey q = false ∧
        (∀ c, c ≠ q → t.getKey c = u.block.getKey c) ∧ RegsKept [] u.block t ∧ t.pc = u.block.pc ∧ t.i = u.block.i ∧
        BytesKept u.block t ∧ StackKept u.block t ∧ TimersKept u.block t ∧ DisplayKept u.block t ∧ ControlKept u.block t ∧
        EnvKept u.block t) ∧
    (16 ≤ k → hostOp (.pressKey k) u = (u, .notAdmitted (.keyNotAdmitted k)) ∧
      hostOp (.releaseKey k) u = (u, .notAdmitted (.keyNotAdmitted k)))

/-! ## The whole machine -/

/-- Each kind of state is written only by the instructions the spec names: the stack by 2NNN and 00EE (R40), memory by FX33
and FX55 (R68), the framebuffer and `redraw` by 00E0 and DXYN (R46, R47), `I` by ANNN, FX1E and FX29 (R37), the timers by
FX15 and FX18 (R43), `run` by FX0A (R48), and the key latch, the beep count and the configuration by none (R45, R126). -/
def Obligations.EachKindOfStateHasItsWriters : Prop :=
  ∀ (i : Instr) (s t : State), exec i s = .next t →
    (i ≠ .ret → (∀ nnn, i ≠ .call nnn) → StackKept s t) ∧
    ((∀ x, i ≠ .ldB x) → (∀ x, i ≠ .storeRegs x) → BytesKept s t) ∧
    (i ≠ .cls → (∀ x y n, i ≠ .drw x y n) → DisplayKept s t) ∧
    ((∀ nnn, i ≠ .ldI nnn) → (∀ x, i ≠ .addI x) → (∀ x, i ≠ .ldF x) → t.i = s.i) ∧
    ((∀ x, i ≠ .ldDT x) → t.dt = s.dt) ∧ ((∀ x, i ≠ .ldST x) → t.st = s.st) ∧
    ((∀ x, i ≠ .ldVxK x) → t.run = s.run) ∧ KeysKept s t ∧ t.beeps = s.beeps ∧ t.cfg = s.cfg

/-- R247: the latch is changed by pressKey and releaseKey of that key only; a cell is true after its press and false after its
release. -/
def Obligations.OnlyKeyEventsChangeTheLatch : Prop :=
  (∀ (o : HostOp) (u : Session) (q : Fin 16), (hostOp o u).1.block.getKey q ≠ u.block.getKey q →
    o = .pressKey q.val ∨ o = .releaseKey q.val) ∧
  (∀ (u : Session) (q : Fin 16), (hostOp (.pressKey q.val) u).1.block.getKey q = true ∧
    (hostOp (.releaseKey q.val) u).1.block.getKey q = false)

/-- R48: only FX0A enters WaitingForKey, only a pressKey event leaves it, and construction, and so every launch, is Running. -/
def Obligations.OnlyFx0aEntersAndPressKeyLeavesTheWait : Prop :=
  (∀ (o : HostOp) (u : Session), u.block.run = .running → (hostOp o u).1.block.run ≠ .running →
    o = .step ∧ ∃ x, u.block.Fetches (.ldVxK x) ∧ (hostOp o u).1.block.run = .waitingForKey x) ∧
  (∀ (o : HostOp) (u : Session) (r : Reg), u.block.run = .waitingForKey r → (hostOp o u).1.block.run ≠ .waitingForKey r →
    ∃ k, k < 16 ∧ o = .pressKey k ∧ (hostOp o u).1.block.run = .running) ∧
  (∀ c, (State.construct c).run = .running) ∧
  (∀ c bytes u, Session.launch c bytes = .next u → u.block.run = .running)

/-- R44: a host operation beeps exactly once when it is a step whose tick takes the sound timer from 1 to 0, and no other
operation or step beeps. -/
def Obligations.OnlyTheTickBeeps : Prop :=
  ∀ (o : HostOp) (u : Session), let t := (hostOp o u).1.block
    let ticksFromOne := o = .step ∧ ∃ i w, u.block.Fetches i ∧ exec i (u.block.setPc (u.block.pc + 2)) = .next w ∧
      w.fault = none ∧ w.st.toNat = 1
    (ticksFromOne → t.st = 0 ∧ t.beeps = u.block.beeps + 1) ∧ (¬ticksFromOne → t.beeps = u.block.beeps)

/-- R267: once a fault is recorded, whatever the host does, the fault stays and nothing changes but the key latch and the
redraw flag. That a faulted block stays faulted is the spec's decision D20. -/
def Obligations.FaultedStateIsTerminal : Prop :=
  ∀ (ops : List HostOp) (u : Session) (r : FaultRecord), u.phase = .stepped → u.block.Inv → u.block.fault = some r →
    let t := (hostRun ops u).block
    t.fault = some r ∧ t.run = u.block.run ∧ RegsKept [] u.block t ∧ t.pc = u.block.pc ∧ t.i = u.block.i ∧
    BytesKept u.block t ∧ StackKept u.block t ∧ TimersKept u.block t ∧ (∀ px py, t.getPixel px py = u.block.getPixel px py) ∧
    EnvKept u.block t

/-- R134: a block spinning on a jump to its own address repeats it for ever, and only the timers count down. -/
def Obligations.SpinningOnlyTicksTheTimers : Prop :=
  ∀ (s : State) (nnn : BitVec 12) (k : Nat), s.Fetches (.jp nnn) → s.pc.toNat = nnn.toNat →
    ∃ t, Host.Core.run Sys2Proof.core k s = .next t ∧ t.Fetches (.jp nnn) ∧ t.dt.toNat = s.dt.toNat - k ∧
      t.st.toNat = s.st.toNat - k ∧ t.beeps = (if 1 ≤ s.st.toNat ∧ s.st.toNat ≤ k then s.beeps + 1 else s.beeps) ∧
      RegsKept [] s t ∧ t.pc = s.pc ∧ t.i = s.i ∧ BytesKept s t ∧ StackKept s t ∧ DisplayKept s t ∧ KeysKept s t ∧
      ControlKept s t ∧ EnvKept s t
end

