-- ==== Sys2Proof/Laws/Decode.lean ====
section
/-!
SUPPORT. The fields of a word as numbers, the fields of each format, and the masks of the opcode map (spec/30_encoding.md).
-/

namespace Sys2Proof

/-! ## The fields of a word, as numbers (R13) -/

theorem opFamily_eq (op : Word) : opFamily op = op.toNat / 4096 := by
  have := op.isLt
  simp [opFamily, Nat.shiftRight_eq_div_pow]; omega

theorem opX_val (op : Word) : (opX op).val = op.toNat / 256 % 16 := by
  simp [opX, Nat.shiftRight_eq_div_pow]

theorem opY_val (op : Word) : (opY op).val = op.toNat / 16 % 16 := by
  simp [opY, Nat.shiftRight_eq_div_pow]

theorem opN_eq (op : Word) : opN op = op.toNat % 16 := by simp [opN]

theorem opKK_toNat (op : Word) : (opKK op).toNat = op.toNat % 256 := by simp [opKK]

theorem opNNN_toNat (op : Word) : (opNNN op).toNat = op.toNat % 4096 := by simp [opNNN]

/-! ## The formats, as numbers (R91) -/

theorem formatA_toNat (f : BitVec 4) (n : BitVec 12) : (formatA f n).toNat = f.toNat * 4096 + n.toNat := by
  simp only [formatA, BitVec.toNat_append]
  rw [← Nat.shiftLeft_add_eq_or_of_lt n.isLt, Nat.shiftLeft_eq]

theorem formatXK_toNat (f : BitVec 4) (x : Reg) (k : Byte) :
    (formatXK f x k).toNat = f.toNat * 4096 + x.val * 256 + k.toNat := by
  simp only [formatXK, regField, BitVec.toNat_append]
  rw [← Nat.shiftLeft_add_eq_or_of_lt k.isLt, ← Nat.shiftLeft_add_eq_or_of_lt (BitVec.isLt _), Nat.shiftLeft_eq,
    Nat.shiftLeft_eq]
  simp; omega

theorem formatXY_toNat (f : BitVec 4) (x y : Reg) (n : BitVec 4) :
    (formatXY f x y n).toNat = f.toNat * 4096 + x.val * 256 + y.val * 16 + n.toNat := by
  simp only [formatXY, regField, BitVec.toNat_append]
  rw [← Nat.shiftLeft_add_eq_or_of_lt n.isLt, ← Nat.shiftLeft_add_eq_or_of_lt (BitVec.isLt _),
    ← Nat.shiftLeft_add_eq_or_of_lt (by rw [Nat.shiftLeft_eq]; simp; omega), Nat.shiftLeft_eq, Nat.shiftLeft_eq,
    Nat.shiftLeft_eq]
  simp; omega

/-! ## The fields of each format -/

@[simp] theorem opFamily_formatA (f : BitVec 4) (n : BitVec 12) : opFamily (formatA f n) = f.toNat := by
  rw [opFamily_eq, formatA_toNat]; omega

@[simp] theorem opFamily_formatXK (f : BitVec 4) (x : Reg) (k : Byte) : opFamily (formatXK f x k) = f.toNat := by
  rw [opFamily_eq, formatXK_toNat]; omega

@[simp] theorem opFamily_formatXY (f : BitVec 4) (x y : Reg) (n : BitVec 4) : opFamily (formatXY f x y n) = f.toNat := by
  rw [opFamily_eq, formatXY_toNat]; omega

@[simp] theorem opNNN_formatA (f : BitVec 4) (n : BitVec 12) : opNNN (formatA f n) = n := by
  apply BitVec.eq_of_toNat_eq; rw [opNNN_toNat, formatA_toNat]; omega

@[simp] theorem opX_formatXK (f : BitVec 4) (x : Reg) (k : Byte) : opX (formatXK f x k) = x := by
  apply Fin.ext; rw [opX_val, formatXK_toNat]; omega

@[simp] theorem opKK_formatXK (f : BitVec 4) (x : Reg) (k : Byte) : opKK (formatXK f x k) = k := by
  apply BitVec.eq_of_toNat_eq; rw [opKK_toNat, formatXK_toNat]; omega

@[simp] theorem opX_formatXY (f : BitVec 4) (x y : Reg) (n : BitVec 4) : opX (formatXY f x y n) = x := by
  apply Fin.ext; rw [opX_val, formatXY_toNat]; omega

@[simp] theorem opY_formatXY (f : BitVec 4) (x y : Reg) (n : BitVec 4) : opY (formatXY f x y n) = y := by
  apply Fin.ext; rw [opY_val, formatXY_toNat]; omega

@[simp] theorem opN_formatXY (f : BitVec 4) (x y : Reg) (n : BitVec 4) : opN (formatXY f x y n) = n.toNat := by
  rw [opN_eq, formatXY_toNat]; omega

/-! ## Words and bytes (R61) -/

theorem wordOfBytes_toNat (hi lo : Byte) : (wordOfBytes hi lo).toNat = hi.toNat * 256 + lo.toNat := by
  simp only [wordOfBytes, BitVec.toNat_ofNat]; omega

theorem highByte_toNat (w : Word) : (highByte w).toNat = w.toNat / 256 := by
  have := w.isLt
  simp [highByte, Nat.shiftRight_eq_div_pow]; omega

theorem lowByte_toNat (w : Word) : (lowByte w).toNat = w.toNat % 256 := by simp [lowByte]

@[simp] theorem wordOfBytes_split (w : Word) : wordOfBytes (highByte w) (lowByte w) = w := by
  apply BitVec.eq_of_toNat_eq; rw [wordOfBytes_toNat, highByte_toNat, lowByte_toNat]; omega

/-! ## The masks of R95, as numbers -/

theorem and_F000 (op : Word) : (op &&& 0xF000).toNat = op.toNat / 4096 * 4096 := by
  have h : op &&& 0xF000 = op.extractLsb' 12 4 ++ 0#12 := by
    apply BitVec.eq_of_getLsbD_eq; intro i hi
    simp only [BitVec.getLsbD_and, BitVec.getLsbD_append, BitVec.getLsbD_extractLsb']
    rcases i with _|_|_|_|_|_|_|_|_|_|_|_|_|_|_|_|i <;> simp
  have := op.isLt
  rw [h, BitVec.toNat_append, ← Nat.shiftLeft_add_eq_or_of_lt (by decide), Nat.shiftLeft_eq]
  simp [Nat.shiftRight_eq_div_pow]; omega

theorem and_F00F (op : Word) : (op &&& 0xF00F).toNat = op.toNat / 4096 * 4096 + op.toNat % 16 := by
  have h : op &&& 0xF00F = op.extractLsb' 12 4 ++ BitVec.setWidth 12 (op.extractLsb' 0 4) := by
    apply BitVec.eq_of_getLsbD_eq; intro i hi
    simp only [BitVec.getLsbD_and, BitVec.getLsbD_append, BitVec.getLsbD_setWidth, BitVec.getLsbD_extractLsb']
    rcases i with _|_|_|_|_|_|_|_|_|_|_|_|_|_|_|_|i <;> simp
  have := op.isLt
  rw [h, BitVec.toNat_append, ← Nat.shiftLeft_add_eq_or_of_lt (BitVec.isLt _), Nat.shiftLeft_eq]
  simp [Nat.shiftRight_eq_div_pow]; omega

theorem and_F0FF (op : Word) : (op &&& 0xF0FF).toNat = op.toNat / 4096 * 4096 + op.toNat % 256 := by
  have h : op &&& 0xF0FF = op.extractLsb' 12 4 ++ BitVec.setWidth 12 (op.extractLsb' 0 8) := by
    apply BitVec.eq_of_getLsbD_eq; intro i hi
    simp only [BitVec.getLsbD_and, BitVec.getLsbD_append, BitVec.getLsbD_setWidth, BitVec.getLsbD_extractLsb']
    rcases i with _|_|_|_|_|_|_|_|_|_|_|_|_|_|_|_|i <;> simp
  have := op.isLt
  rw [h, BitVec.toNat_append, ← Nat.shiftLeft_add_eq_or_of_lt (BitVec.isLt _), Nat.shiftLeft_eq]
  simp [Nat.shiftRight_eq_div_pow]; omega

/-- A row of mask F000 is selected by the family alone. -/
theorem selects_F000 (m : String) (b op : Word) (hb : b.toNat % 4096 = 0) :
    OpcodeRow.selects ⟨b, 0xF000, m⟩ op = true ↔ op.toNat / 4096 = b.toNat / 4096 := by
  simp only [OpcodeRow.selects, beq_iff_eq, ← BitVec.toNat_inj, and_F000]; omega

/-- A row of mask F00F is selected by the family and the low nibble. -/
theorem selects_F00F (m : String) (b op : Word) (hb : b.toNat % 4096 < 16) :
    OpcodeRow.selects ⟨b, 0xF00F, m⟩ op = true ↔
      op.toNat / 4096 = b.toNat / 4096 ∧ op.toNat % 16 = b.toNat % 16 := by
  simp only [OpcodeRow.selects, beq_iff_eq, ← BitVec.toNat_inj, and_F00F]; omega

/-- A row of mask F0FF is selected by the family and the low byte. -/
theorem selects_F0FF (m : String) (b op : Word) (hb : b.toNat % 4096 < 256) :
    OpcodeRow.selects ⟨b, 0xF0FF, m⟩ op = true ↔
      op.toNat / 4096 = b.toNat / 4096 ∧ op.toNat % 256 = b.toNat % 256 := by
  simp only [OpcodeRow.selects, beq_iff_eq, ← BitVec.toNat_inj, and_F0FF]; omega

/-- A row of mask FFFF is selected by its own word alone. -/
theorem selects_FFFF (m : String) (b op : Word) : OpcodeRow.selects ⟨b, 0xFFFF, m⟩ op = true ↔ op = b := by
  have h : op &&& 0xFFFF = op := by
    apply BitVec.eq_of_getLsbD_eq; intro i hi
    rcases i with _|_|_|_|_|_|_|_|_|_|_|_|_|_|_|_|i <;> simp
  simp only [OpcodeRow.selects, beq_iff_eq]; rw [h]

end Sys2Proof
end

