-- ==== Sys2Proof/Laws/State.lean ====
section
/-!
SUPPORT. What each update of Machine/Ops.lean does to each field of State, and to each indexed accessor: one lemma each.
-/

namespace Sys2Proof.Machine

variable (s : State)

/-! ### setV -/

@[simp] theorem setV_cfg (x : Reg) (b : Byte) : (s.setV x b).cfg = s.cfg := rfl
@[simp] theorem setV_v (x : Reg) (b : Byte) : (s.setV x b).v = s.v.set x.val b := rfl
@[simp] theorem setV_pc (x : Reg) (b : Byte) : (s.setV x b).pc = s.pc := rfl
@[simp] theorem setV_i (x : Reg) (b : Byte) : (s.setV x b).i = s.i := rfl
@[simp] theorem setV_mem (x : Reg) (b : Byte) : (s.setV x b).mem = s.mem := rfl
@[simp] theorem setV_stack (x : Reg) (b : Byte) : (s.setV x b).stack = s.stack := rfl
@[simp] theorem setV_sp (x : Reg) (b : Byte) : (s.setV x b).sp = s.sp := rfl
@[simp] theorem setV_dt (x : Reg) (b : Byte) : (s.setV x b).dt = s.dt := rfl
@[simp] theorem setV_st (x : Reg) (b : Byte) : (s.setV x b).st = s.st := rfl
@[simp] theorem setV_keys (x : Reg) (b : Byte) : (s.setV x b).keys = s.keys := rfl
@[simp] theorem setV_fb (x : Reg) (b : Byte) : (s.setV x b).fb = s.fb := rfl
@[simp] theorem setV_redraw (x : Reg) (b : Byte) : (s.setV x b).redraw = s.redraw := rfl
@[simp] theorem setV_run (x : Reg) (b : Byte) : (s.setV x b).run = s.run := rfl
@[simp] theorem setV_fault (x : Reg) (b : Byte) : (s.setV x b).fault = s.fault := rfl
@[simp] theorem setV_beeps (x : Reg) (b : Byte) : (s.setV x b).beeps = s.beeps := rfl
@[simp] theorem setV_draws (x : Reg) (b : Byte) : (s.setV x b).draws = s.draws := rfl
@[simp] theorem setV_getKey (x : Reg) (b : Byte) (q : Fin 16) : (s.setV x b).getKey q = s.getKey q := rfl
@[simp] theorem setV_getSlot (x : Reg) (b : Byte) (q : Fin 16) : (s.setV x b).getSlot q = s.getSlot q := rfl
@[simp] theorem setV_getPixel (x : Reg) (b : Byte) (qx : Fin 64) (qy : Fin 32) : (s.setV x b).getPixel qx qy = s.getPixel qx qy := rfl
@[simp] theorem setV_readByte (x : Reg) (b : Byte) (q : Nat) : (s.setV x b).readByte q = s.readByte q := rfl

/-! ### setPc -/

@[simp] theorem setPc_cfg (w : Word) : (s.setPc w).cfg = s.cfg := rfl
@[simp] theorem setPc_v (w : Word) : (s.setPc w).v = s.v := rfl
@[simp] theorem setPc_pc (w : Word) : (s.setPc w).pc = w := rfl
@[simp] theorem setPc_i (w : Word) : (s.setPc w).i = s.i := rfl
@[simp] theorem setPc_mem (w : Word) : (s.setPc w).mem = s.mem := rfl
@[simp] theorem setPc_stack (w : Word) : (s.setPc w).stack = s.stack := rfl
@[simp] theorem setPc_sp (w : Word) : (s.setPc w).sp = s.sp := rfl
@[simp] theorem setPc_dt (w : Word) : (s.setPc w).dt = s.dt := rfl
@[simp] theorem setPc_st (w : Word) : (s.setPc w).st = s.st := rfl
@[simp] theorem setPc_keys (w : Word) : (s.setPc w).keys = s.keys := rfl
@[simp] theorem setPc_fb (w : Word) : (s.setPc w).fb = s.fb := rfl
@[simp] theorem setPc_redraw (w : Word) : (s.setPc w).redraw = s.redraw := rfl
@[simp] theorem setPc_run (w : Word) : (s.setPc w).run = s.run := rfl
@[simp] theorem setPc_fault (w : Word) : (s.setPc w).fault = s.fault := rfl
@[simp] theorem setPc_beeps (w : Word) : (s.setPc w).beeps = s.beeps := rfl
@[simp] theorem setPc_draws (w : Word) : (s.setPc w).draws = s.draws := rfl
@[simp] theorem setPc_getV (w : Word) (q : Reg) : (s.setPc w).getV q = s.getV q := rfl
@[simp] theorem setPc_getKey (w : Word) (q : Fin 16) : (s.setPc w).getKey q = s.getKey q := rfl
@[simp] theorem setPc_getSlot (w : Word) (q : Fin 16) : (s.setPc w).getSlot q = s.getSlot q := rfl
@[simp] theorem setPc_getPixel (w : Word) (qx : Fin 64) (qy : Fin 32) : (s.setPc w).getPixel qx qy = s.getPixel qx qy := rfl
@[simp] theorem setPc_readByte (w : Word) (q : Nat) : (s.setPc w).readByte q = s.readByte q := rfl

/-! ### setI -/

@[simp] theorem setI_cfg (w : Word) : (s.setI w).cfg = s.cfg := rfl
@[simp] theorem setI_v (w : Word) : (s.setI w).v = s.v := rfl
@[simp] theorem setI_pc (w : Word) : (s.setI w).pc = s.pc := rfl
@[simp] theorem setI_i (w : Word) : (s.setI w).i = w := rfl
@[simp] theorem setI_mem (w : Word) : (s.setI w).mem = s.mem := rfl
@[simp] theorem setI_stack (w : Word) : (s.setI w).stack = s.stack := rfl
@[simp] theorem setI_sp (w : Word) : (s.setI w).sp = s.sp := rfl
@[simp] theorem setI_dt (w : Word) : (s.setI w).dt = s.dt := rfl
@[simp] theorem setI_st (w : Word) : (s.setI w).st = s.st := rfl
@[simp] theorem setI_keys (w : Word) : (s.setI w).keys = s.keys := rfl
@[simp] theorem setI_fb (w : Word) : (s.setI w).fb = s.fb := rfl
@[simp] theorem setI_redraw (w : Word) : (s.setI w).redraw = s.redraw := rfl
@[simp] theorem setI_run (w : Word) : (s.setI w).run = s.run := rfl
@[simp] theorem setI_fault (w : Word) : (s.setI w).fault = s.fault := rfl
@[simp] theorem setI_beeps (w : Word) : (s.setI w).beeps = s.beeps := rfl
@[simp] theorem setI_draws (w : Word) : (s.setI w).draws = s.draws := rfl
@[simp] theorem setI_getV (w : Word) (q : Reg) : (s.setI w).getV q = s.getV q := rfl
@[simp] theorem setI_getKey (w : Word) (q : Fin 16) : (s.setI w).getKey q = s.getKey q := rfl
@[simp] theorem setI_getSlot (w : Word) (q : Fin 16) : (s.setI w).getSlot q = s.getSlot q := rfl
@[simp] theorem setI_getPixel (w : Word) (qx : Fin 64) (qy : Fin 32) : (s.setI w).getPixel qx qy = s.getPixel qx qy := rfl
@[simp] theorem setI_readByte (w : Word) (q : Nat) : (s.setI w).readByte q = s.readByte q := rfl

/-! ### setDT -/

@[simp] theorem setDT_cfg (b : Byte) : (s.setDT b).cfg = s.cfg := rfl
@[simp] theorem setDT_v (b : Byte) : (s.setDT b).v = s.v := rfl
@[simp] theorem setDT_pc (b : Byte) : (s.setDT b).pc = s.pc := rfl
@[simp] theorem setDT_i (b : Byte) : (s.setDT b).i = s.i := rfl
@[simp] theorem setDT_mem (b : Byte) : (s.setDT b).mem = s.mem := rfl
@[simp] theorem setDT_stack (b : Byte) : (s.setDT b).stack = s.stack := rfl
@[simp] theorem setDT_sp (b : Byte) : (s.setDT b).sp = s.sp := rfl
@[simp] theorem setDT_dt (b : Byte) : (s.setDT b).dt = b := rfl
@[simp] theorem setDT_st (b : Byte) : (s.setDT b).st = s.st := rfl
@[simp] theorem setDT_keys (b : Byte) : (s.setDT b).keys = s.keys := rfl
@[simp] theorem setDT_fb (b : Byte) : (s.setDT b).fb = s.fb := rfl
@[simp] theorem setDT_redraw (b : Byte) : (s.setDT b).redraw = s.redraw := rfl
@[simp] theorem setDT_run (b : Byte) : (s.setDT b).run = s.run := rfl
@[simp] theorem setDT_fault (b : Byte) : (s.setDT b).fault = s.fault := rfl
@[simp] theorem setDT_beeps (b : Byte) : (s.setDT b).beeps = s.beeps := rfl
@[simp] theorem setDT_draws (b : Byte) : (s.setDT b).draws = s.draws := rfl
@[simp] theorem setDT_getV (b : Byte) (q : Reg) : (s.setDT b).getV q = s.getV q := rfl
@[simp] theorem setDT_getKey (b : Byte) (q : Fin 16) : (s.setDT b).getKey q = s.getKey q := rfl
@[simp] theorem setDT_getSlot (b : Byte) (q : Fin 16) : (s.setDT b).getSlot q = s.getSlot q := rfl
@[simp] theorem setDT_getPixel (b : Byte) (qx : Fin 64) (qy : Fin 32) : (s.setDT b).getPixel qx qy = s.getPixel qx qy := rfl
@[simp] theorem setDT_readByte (b : Byte) (q : Nat) : (s.setDT b).readByte q = s.readByte q := rfl

/-! ### setST -/

@[simp] theorem setST_cfg (b : Byte) : (s.setST b).cfg = s.cfg := rfl
@[simp] theorem setST_v (b : Byte) : (s.setST b).v = s.v := rfl
@[simp] theorem setST_pc (b : Byte) : (s.setST b).pc = s.pc := rfl
@[simp] theorem setST_i (b : Byte) : (s.setST b).i = s.i := rfl
@[simp] theorem setST_mem (b : Byte) : (s.setST b).mem = s.mem := rfl
@[simp] theorem setST_stack (b : Byte) : (s.setST b).stack = s.stack := rfl
@[simp] theorem setST_sp (b : Byte) : (s.setST b).sp = s.sp := rfl
@[simp] theorem setST_dt (b : Byte) : (s.setST b).dt = s.dt := rfl
@[simp] theorem setST_st (b : Byte) : (s.setST b).st = b := rfl
@[simp] theorem setST_keys (b : Byte) : (s.setST b).keys = s.keys := rfl
@[simp] theorem setST_fb (b : Byte) : (s.setST b).fb = s.fb := rfl
@[simp] theorem setST_redraw (b : Byte) : (s.setST b).redraw = s.redraw := rfl
@[simp] theorem setST_run (b : Byte) : (s.setST b).run = s.run := rfl
@[simp] theorem setST_fault (b : Byte) : (s.setST b).fault = s.fault := rfl
@[simp] theorem setST_beeps (b : Byte) : (s.setST b).beeps = s.beeps := rfl
@[simp] theorem setST_draws (b : Byte) : (s.setST b).draws = s.draws := rfl
@[simp] theorem setST_getV (b : Byte) (q : Reg) : (s.setST b).getV q = s.getV q := rfl
@[simp] theorem setST_getKey (b : Byte) (q : Fin 16) : (s.setST b).getKey q = s.getKey q := rfl
@[simp] theorem setST_getSlot (b : Byte) (q : Fin 16) : (s.setST b).getSlot q = s.getSlot q := rfl
@[simp] theorem setST_getPixel (b : Byte) (qx : Fin 64) (qy : Fin 32) : (s.setST b).getPixel qx qy = s.getPixel qx qy := rfl
@[simp] theorem setST_readByte (b : Byte) (q : Nat) : (s.setST b).readByte q = s.readByte q := rfl

/-! ### beep -/

@[simp] theorem beep_cfg : s.beep.cfg = s.cfg := rfl
@[simp] theorem beep_v : s.beep.v = s.v := rfl
@[simp] theorem beep_pc : s.beep.pc = s.pc := rfl
@[simp] theorem beep_i : s.beep.i = s.i := rfl
@[simp] theorem beep_mem : s.beep.mem = s.mem := rfl
@[simp] theorem beep_stack : s.beep.stack = s.stack := rfl
@[simp] theorem beep_sp : s.beep.sp = s.sp := rfl
@[simp] theorem beep_dt : s.beep.dt = s.dt := rfl
@[simp] theorem beep_st : s.beep.st = s.st := rfl
@[simp] theorem beep_keys : s.beep.keys = s.keys := rfl
@[simp] theorem beep_fb : s.beep.fb = s.fb := rfl
@[simp] theorem beep_redraw : s.beep.redraw = s.redraw := rfl
@[simp] theorem beep_run : s.beep.run = s.run := rfl
@[simp] theorem beep_fault : s.beep.fault = s.fault := rfl
@[simp] theorem beep_beeps : s.beep.beeps = s.beeps + 1 := rfl
@[simp] theorem beep_draws : s.beep.draws = s.draws := rfl
@[simp] theorem beep_getV (q : Reg) : s.beep.getV q = s.getV q := rfl
@[simp] theorem beep_getKey (q : Fin 16) : s.beep.getKey q = s.getKey q := rfl
@[simp] theorem beep_getSlot (q : Fin 16) : s.beep.getSlot q = s.getSlot q := rfl
@[simp] theorem beep_getPixel (qx : Fin 64) (qy : Fin 32) : s.beep.getPixel qx qy = s.getPixel qx qy := rfl
@[simp] theorem beep_readByte (q : Nat) : s.beep.readByte q = s.readByte q := rfl

/-! ### setRedraw -/

@[simp] theorem setRedraw_cfg (b : Bool) : (s.setRedraw b).cfg = s.cfg := rfl
@[simp] theorem setRedraw_v (b : Bool) : (s.setRedraw b).v = s.v := rfl
@[simp] theorem setRedraw_pc (b : Bool) : (s.setRedraw b).pc = s.pc := rfl
@[simp] theorem setRedraw_i (b : Bool) : (s.setRedraw b).i = s.i := rfl
@[simp] theorem setRedraw_mem (b : Bool) : (s.setRedraw b).mem = s.mem := rfl
@[simp] theorem setRedraw_stack (b : Bool) : (s.setRedraw b).stack = s.stack := rfl
@[simp] theorem setRedraw_sp (b : Bool) : (s.setRedraw b).sp = s.sp := rfl
@[simp] theorem setRedraw_dt (b : Bool) : (s.setRedraw b).dt = s.dt := rfl
@[simp] theorem setRedraw_st (b : Bool) : (s.setRedraw b).st = s.st := rfl
@[simp] theorem setRedraw_keys (b : Bool) : (s.setRedraw b).keys = s.keys := rfl
@[simp] theorem setRedraw_fb (b : Bool) : (s.setRedraw b).fb = s.fb := rfl
@[simp] theorem setRedraw_redraw (b : Bool) : (s.setRedraw b).redraw = b := rfl
@[simp] theorem setRedraw_run (b : Bool) : (s.setRedraw b).run = s.run := rfl
@[simp] theorem setRedraw_fault (b : Bool) : (s.setRedraw b).fault = s.fault := rfl
@[simp] theorem setRedraw_beeps (b : Bool) : (s.setRedraw b).beeps = s.beeps := rfl
@[simp] theorem setRedraw_draws (b : Bool) : (s.setRedraw b).draws = s.draws := rfl
@[simp] theorem setRedraw_getV (b : Bool) (q : Reg) : (s.setRedraw b).getV q = s.getV q := rfl
@[simp] theorem setRedraw_getKey (b : Bool) (q : Fin 16) : (s.setRedraw b).getKey q = s.getKey q := rfl
@[simp] theorem setRedraw_getSlot (b : Bool) (q : Fin 16) : (s.setRedraw b).getSlot q = s.getSlot q := rfl
@[simp] theorem setRedraw_getPixel (b : Bool) (qx : Fin 64) (qy : Fin 32) : (s.setRedraw b).getPixel qx qy = s.getPixel qx qy := rfl
@[simp] theorem setRedraw_readByte (b : Bool) (q : Nat) : (s.setRedraw b).readByte q = s.readByte q := rfl

/-! ### setRun -/

@[simp] theorem setRun_cfg (r : RunState) : (s.setRun r).cfg = s.cfg := rfl
@[simp] theorem setRun_v (r : RunState) : (s.setRun r).v = s.v := rfl
@[simp] theorem setRun_pc (r : RunState) : (s.setRun r).pc = s.pc := rfl
@[simp] theorem setRun_i (r : RunState) : (s.setRun r).i = s.i := rfl
@[simp] theorem setRun_mem (r : RunState) : (s.setRun r).mem = s.mem := rfl
@[simp] theorem setRun_stack (r : RunState) : (s.setRun r).stack = s.stack := rfl
@[simp] theorem setRun_sp (r : RunState) : (s.setRun r).sp = s.sp := rfl
@[simp] theorem setRun_dt (r : RunState) : (s.setRun r).dt = s.dt := rfl
@[simp] theorem setRun_st (r : RunState) : (s.setRun r).st = s.st := rfl
@[simp] theorem setRun_keys (r : RunState) : (s.setRun r).keys = s.keys := rfl
@[simp] theorem setRun_fb (r : RunState) : (s.setRun r).fb = s.fb := rfl
@[simp] theorem setRun_redraw (r : RunState) : (s.setRun r).redraw = s.redraw := rfl
@[simp] theorem setRun_run (r : RunState) : (s.setRun r).run = r := rfl
@[simp] theorem setRun_fault (r : RunState) : (s.setRun r).fault = s.fault := rfl
@[simp] theorem setRun_beeps (r : RunState) : (s.setRun r).beeps = s.beeps := rfl
@[simp] theorem setRun_draws (r : RunState) : (s.setRun r).draws = s.draws := rfl
@[simp] theorem setRun_getV (r : RunState) (q : Reg) : (s.setRun r).getV q = s.getV q := rfl
@[simp] theorem setRun_getKey (r : RunState) (q : Fin 16) : (s.setRun r).getKey q = s.getKey q := rfl
@[simp] theorem setRun_getSlot (r : RunState) (q : Fin 16) : (s.setRun r).getSlot q = s.getSlot q := rfl
@[simp] theorem setRun_getPixel (r : RunState) (qx : Fin 64) (qy : Fin 32) : (s.setRun r).getPixel qx qy = s.getPixel qx qy := rfl
@[simp] theorem setRun_readByte (r : RunState) (q : Nat) : (s.setRun r).readByte q = s.readByte q := rfl

/-! ### setKey -/

@[simp] theorem setKey_cfg (k : Fin 16) (b : Bool) : (s.setKey k b).cfg = s.cfg := rfl
@[simp] theorem setKey_v (k : Fin 16) (b : Bool) : (s.setKey k b).v = s.v := rfl
@[simp] theorem setKey_pc (k : Fin 16) (b : Bool) : (s.setKey k b).pc = s.pc := rfl
@[simp] theorem setKey_i (k : Fin 16) (b : Bool) : (s.setKey k b).i = s.i := rfl
@[simp] theorem setKey_mem (k : Fin 16) (b : Bool) : (s.setKey k b).mem = s.mem := rfl
@[simp] theorem setKey_stack (k : Fin 16) (b : Bool) : (s.setKey k b).stack = s.stack := rfl
@[simp] theorem setKey_sp (k : Fin 16) (b : Bool) : (s.setKey k b).sp = s.sp := rfl
@[simp] theorem setKey_dt (k : Fin 16) (b : Bool) : (s.setKey k b).dt = s.dt := rfl
@[simp] theorem setKey_st (k : Fin 16) (b : Bool) : (s.setKey k b).st = s.st := rfl
@[simp] theorem setKey_keys (k : Fin 16) (b : Bool) : (s.setKey k b).keys = s.keys.set k.val b := rfl
@[simp] theorem setKey_fb (k : Fin 16) (b : Bool) : (s.setKey k b).fb = s.fb := rfl
@[simp] theorem setKey_redraw (k : Fin 16) (b : Bool) : (s.setKey k b).redraw = s.redraw := rfl
@[simp] theorem setKey_run (k : Fin 16) (b : Bool) : (s.setKey k b).run = s.run := rfl
@[simp] theorem setKey_fault (k : Fin 16) (b : Bool) : (s.setKey k b).fault = s.fault := rfl
@[simp] theorem setKey_beeps (k : Fin 16) (b : Bool) : (s.setKey k b).beeps = s.beeps := rfl
@[simp] theorem setKey_draws (k : Fin 16) (b : Bool) : (s.setKey k b).draws = s.draws := rfl
@[simp] theorem setKey_getV (k : Fin 16) (b : Bool) (q : Reg) : (s.setKey k b).getV q = s.getV q := rfl
@[simp] theorem setKey_getSlot (k : Fin 16) (b : Bool) (q : Fin 16) : (s.setKey k b).getSlot q = s.getSlot q := rfl
@[simp] theorem setKey_getPixel (k : Fin 16) (b : Bool) (qx : Fin 64) (qy : Fin 32) : (s.setKey k b).getPixel qx qy = s.getPixel qx qy := rfl
@[simp] theorem setKey_readByte (k : Fin 16) (b : Bool) (q : Nat) : (s.setKey k b).readByte q = s.readByte q := rfl

/-! ### setStack -/

@[simp] theorem setStack_cfg (k : Fin 16) (w : Word) (d : Fin 17) : (s.setStack k w d).cfg = s.cfg := rfl
@[simp] theorem setStack_v (k : Fin 16) (w : Word) (d : Fin 17) : (s.setStack k w d).v = s.v := rfl
@[simp] theorem setStack_pc (k : Fin 16) (w : Word) (d : Fin 17) : (s.setStack k w d).pc = s.pc := rfl
@[simp] theorem setStack_i (k : Fin 16) (w : Word) (d : Fin 17) : (s.setStack k w d).i = s.i := rfl
@[simp] theorem setStack_mem (k : Fin 16) (w : Word) (d : Fin 17) : (s.setStack k w d).mem = s.mem := rfl
@[simp] theorem setStack_stack (k : Fin 16) (w : Word) (d : Fin 17) : (s.setStack k w d).stack = s.stack.set k.val w := rfl
@[simp] theorem setStack_sp (k : Fin 16) (w : Word) (d : Fin 17) : (s.setStack k w d).sp = d := rfl
@[simp] theorem setStack_dt (k : Fin 16) (w : Word) (d : Fin 17) : (s.setStack k w d).dt = s.dt := rfl
@[simp] theorem setStack_st (k : Fin 16) (w : Word) (d : Fin 17) : (s.setStack k w d).st = s.st := rfl
@[simp] theorem setStack_keys (k : Fin 16) (w : Word) (d : Fin 17) : (s.setStack k w d).keys = s.keys := rfl
@[simp] theorem setStack_fb (k : Fin 16) (w : Word) (d : Fin 17) : (s.setStack k w d).fb = s.fb := rfl
@[simp] theorem setStack_redraw (k : Fin 16) (w : Word) (d : Fin 17) : (s.setStack k w d).redraw = s.redraw := rfl
@[simp] theorem setStack_run (k : Fin 16) (w : Word) (d : Fin 17) : (s.setStack k w d).run = s.run := rfl
@[simp] theorem setStack_fault (k : Fin 16) (w : Word) (d : Fin 17) : (s.setStack k w d).fault = s.fault := rfl
@[simp] theorem setStack_beeps (k : Fin 16) (w : Word) (d : Fin 17) : (s.setStack k w d).beeps = s.beeps := rfl
@[simp] theorem setStack_draws (k : Fin 16) (w : Word) (d : Fin 17) : (s.setStack k w d).draws = s.draws := rfl
@[simp] theorem setStack_getV (k : Fin 16) (w : Word) (d : Fin 17) (q : Reg) : (s.setStack k w d).getV q = s.getV q := rfl
@[simp] theorem setStack_getKey (k : Fin 16) (w : Word) (d : Fin 17) (q : Fin 16) : (s.setStack k w d).getKey q = s.getKey q := rfl
@[simp] theorem setStack_getPixel (k : Fin 16) (w : Word) (d : Fin 17) (qx : Fin 64) (qy : Fin 32) : (s.setStack k w d).getPixel qx qy = s.getPixel qx qy := rfl
@[simp] theorem setStack_readByte (k : Fin 16) (w : Word) (d : Fin 17) (q : Nat) : (s.setStack k w d).readByte q = s.readByte q := rfl

/-! ### setSp -/

@[simp] theorem setSp_cfg (d : Fin 17) : (s.setSp d).cfg = s.cfg := rfl
@[simp] theorem setSp_v (d : Fin 17) : (s.setSp d).v = s.v := rfl
@[simp] theorem setSp_pc (d : Fin 17) : (s.setSp d).pc = s.pc := rfl
@[simp] theorem setSp_i (d : Fin 17) : (s.setSp d).i = s.i := rfl
@[simp] theorem setSp_mem (d : Fin 17) : (s.setSp d).mem = s.mem := rfl
@[simp] theorem setSp_stack (d : Fin 17) : (s.setSp d).stack = s.stack := rfl
@[simp] theorem setSp_sp (d : Fin 17) : (s.setSp d).sp = d := rfl
@[simp] theorem setSp_dt (d : Fin 17) : (s.setSp d).dt = s.dt := rfl
@[simp] theorem setSp_st (d : Fin 17) : (s.setSp d).st = s.st := rfl
@[simp] theorem setSp_keys (d : Fin 17) : (s.setSp d).keys = s.keys := rfl
@[simp] theorem setSp_fb (d : Fin 17) : (s.setSp d).fb = s.fb := rfl
@[simp] theorem setSp_redraw (d : Fin 17) : (s.setSp d).redraw = s.redraw := rfl
@[simp] theorem setSp_run (d : Fin 17) : (s.setSp d).run = s.run := rfl
@[simp] theorem setSp_fault (d : Fin 17) : (s.setSp d).fault = s.fault := rfl
@[simp] theorem setSp_beeps (d : Fin 17) : (s.setSp d).beeps = s.beeps := rfl
@[simp] theorem setSp_draws (d : Fin 17) : (s.setSp d).draws = s.draws := rfl
@[simp] theorem setSp_getV (d : Fin 17) (q : Reg) : (s.setSp d).getV q = s.getV q := rfl
@[simp] theorem setSp_getKey (d : Fin 17) (q : Fin 16) : (s.setSp d).getKey q = s.getKey q := rfl
@[simp] theorem setSp_getSlot (d : Fin 17) (q : Fin 16) : (s.setSp d).getSlot q = s.getSlot q := rfl
@[simp] theorem setSp_getPixel (d : Fin 17) (qx : Fin 64) (qy : Fin 32) : (s.setSp d).getPixel qx qy = s.getPixel qx qy := rfl
@[simp] theorem setSp_readByte (d : Fin 17) (q : Nat) : (s.setSp d).readByte q = s.readByte q := rfl

/-! ### recordFault -/

@[simp] theorem recordFault_cfg (r : FaultRecord) : (s.recordFault r).cfg = s.cfg := rfl
@[simp] theorem recordFault_v (r : FaultRecord) : (s.recordFault r).v = s.v := rfl
@[simp] theorem recordFault_pc (r : FaultRecord) : (s.recordFault r).pc = s.pc := rfl
@[simp] theorem recordFault_i (r : FaultRecord) : (s.recordFault r).i = s.i := rfl
@[simp] theorem recordFault_mem (r : FaultRecord) : (s.recordFault r).mem = s.mem := rfl
@[simp] theorem recordFault_stack (r : FaultRecord) : (s.recordFault r).stack = s.stack := rfl
@[simp] theorem recordFault_sp (r : FaultRecord) : (s.recordFault r).sp = s.sp := rfl
@[simp] theorem recordFault_dt (r : FaultRecord) : (s.recordFault r).dt = s.dt := rfl
@[simp] theorem recordFault_st (r : FaultRecord) : (s.recordFault r).st = s.st := rfl
@[simp] theorem recordFault_keys (r : FaultRecord) : (s.recordFault r).keys = s.keys := rfl
@[simp] theorem recordFault_fb (r : FaultRecord) : (s.recordFault r).fb = s.fb := rfl
@[simp] theorem recordFault_redraw (r : FaultRecord) : (s.recordFault r).redraw = s.redraw := rfl
@[simp] theorem recordFault_run (r : FaultRecord) : (s.recordFault r).run = s.run := rfl
@[simp] theorem recordFault_fault (r : FaultRecord) : (s.recordFault r).fault = some r := rfl
@[simp] theorem recordFault_beeps (r : FaultRecord) : (s.recordFault r).beeps = s.beeps := rfl
@[simp] theorem recordFault_draws (r : FaultRecord) : (s.recordFault r).draws = s.draws := rfl
@[simp] theorem recordFault_getV (r : FaultRecord) (q : Reg) : (s.recordFault r).getV q = s.getV q := rfl
@[simp] theorem recordFault_getKey (r : FaultRecord) (q : Fin 16) : (s.recordFault r).getKey q = s.getKey q := rfl
@[simp] theorem recordFault_getSlot (r : FaultRecord) (q : Fin 16) : (s.recordFault r).getSlot q = s.getSlot q := rfl
@[simp] theorem recordFault_getPixel (r : FaultRecord) (qx : Fin 64) (qy : Fin 32) : (s.recordFault r).getPixel qx qy = s.getPixel qx qy := rfl
@[simp] theorem recordFault_readByte (r : FaultRecord) (q : Nat) : (s.recordFault r).readByte q = s.readByte q := rfl

/-! ### putPixel -/

@[simp] theorem putPixel_cfg (px : Fin 64) (py : Fin 32) (b : Bool) : (s.putPixel px py b).cfg = s.cfg := rfl
@[simp] theorem putPixel_v (px : Fin 64) (py : Fin 32) (b : Bool) : (s.putPixel px py b).v = s.v := rfl
@[simp] theorem putPixel_pc (px : Fin 64) (py : Fin 32) (b : Bool) : (s.putPixel px py b).pc = s.pc := rfl
@[simp] theorem putPixel_i (px : Fin 64) (py : Fin 32) (b : Bool) : (s.putPixel px py b).i = s.i := rfl
@[simp] theorem putPixel_mem (px : Fin 64) (py : Fin 32) (b : Bool) : (s.putPixel px py b).mem = s.mem := rfl
@[simp] theorem putPixel_stack (px : Fin 64) (py : Fin 32) (b : Bool) : (s.putPixel px py b).stack = s.stack := rfl
@[simp] theorem putPixel_sp (px : Fin 64) (py : Fin 32) (b : Bool) : (s.putPixel px py b).sp = s.sp := rfl
@[simp] theorem putPixel_dt (px : Fin 64) (py : Fin 32) (b : Bool) : (s.putPixel px py b).dt = s.dt := rfl
@[simp] theorem putPixel_st (px : Fin 64) (py : Fin 32) (b : Bool) : (s.putPixel px py b).st = s.st := rfl
@[simp] theorem putPixel_keys (px : Fin 64) (py : Fin 32) (b : Bool) : (s.putPixel px py b).keys = s.keys := rfl
@[simp] theorem putPixel_fb (px : Fin 64) (py : Fin 32) (b : Bool) : (s.putPixel px py b).fb = s.fb.set px.val ((s.fb[px.val]).set py.val b) := rfl
@[simp] theorem putPixel_redraw (px : Fin 64) (py : Fin 32) (b : Bool) : (s.putPixel px py b).redraw = s.redraw := rfl
@[simp] theorem putPixel_run (px : Fin 64) (py : Fin 32) (b : Bool) : (s.putPixel px py b).run = s.run := rfl
@[simp] theorem putPixel_fault (px : Fin 64) (py : Fin 32) (b : Bool) : (s.putPixel px py b).fault = s.fault := rfl
@[simp] theorem putPixel_beeps (px : Fin 64) (py : Fin 32) (b : Bool) : (s.putPixel px py b).beeps = s.beeps := rfl
@[simp] theorem putPixel_draws (px : Fin 64) (py : Fin 32) (b : Bool) : (s.putPixel px py b).draws = s.draws := rfl
@[simp] theorem putPixel_getV (px : Fin 64) (py : Fin 32) (b : Bool) (q : Reg) : (s.putPixel px py b).getV q = s.getV q := rfl
@[simp] theorem putPixel_getKey (px : Fin 64) (py : Fin 32) (b : Bool) (q : Fin 16) : (s.putPixel px py b).getKey q = s.getKey q := rfl
@[simp] theorem putPixel_getSlot (px : Fin 64) (py : Fin 32) (b : Bool) (q : Fin 16) : (s.putPixel px py b).getSlot q = s.getSlot q := rfl
@[simp] theorem putPixel_readByte (px : Fin 64) (py : Fin 32) (b : Bool) (q : Nat) : (s.putPixel px py b).readByte q = s.readByte q := rfl

/-! ### clearAll -/

@[simp] theorem clearAll_cfg : s.clearAll.cfg = s.cfg := rfl
@[simp] theorem clearAll_v : s.clearAll.v = s.v := rfl
@[simp] theorem clearAll_pc : s.clearAll.pc = s.pc := rfl
@[simp] theorem clearAll_i : s.clearAll.i = s.i := rfl
@[simp] theorem clearAll_mem : s.clearAll.mem = s.mem := rfl
@[simp] theorem clearAll_stack : s.clearAll.stack = s.stack := rfl
@[simp] theorem clearAll_sp : s.clearAll.sp = s.sp := rfl
@[simp] theorem clearAll_dt : s.clearAll.dt = s.dt := rfl
@[simp] theorem clearAll_st : s.clearAll.st = s.st := rfl
@[simp] theorem clearAll_keys : s.clearAll.keys = s.keys := rfl
@[simp] theorem clearAll_fb : s.clearAll.fb = Vector.replicate 64 (Vector.replicate 32 false) := rfl
@[simp] theorem clearAll_redraw : s.clearAll.redraw = s.redraw := rfl
@[simp] theorem clearAll_run : s.clearAll.run = s.run := rfl
@[simp] theorem clearAll_fault : s.clearAll.fault = s.fault := rfl
@[simp] theorem clearAll_beeps : s.clearAll.beeps = s.beeps := rfl
@[simp] theorem clearAll_draws : s.clearAll.draws = s.draws := rfl
@[simp] theorem clearAll_getV (q : Reg) : s.clearAll.getV q = s.getV q := rfl
@[simp] theorem clearAll_getKey (q : Fin 16) : s.clearAll.getKey q = s.getKey q := rfl
@[simp] theorem clearAll_getSlot (q : Fin 16) : s.clearAll.getSlot q = s.getSlot q := rfl
@[simp] theorem clearAll_readByte (q : Nat) : s.clearAll.readByte q = s.readByte q := rfl

/-! ### putByte -/

@[simp] theorem putByte_cfg (a : Nat) (b : Byte) : (s.putByte a b).cfg = s.cfg := rfl
@[simp] theorem putByte_v (a : Nat) (b : Byte) : (s.putByte a b).v = s.v := rfl
@[simp] theorem putByte_pc (a : Nat) (b : Byte) : (s.putByte a b).pc = s.pc := rfl
@[simp] theorem putByte_i (a : Nat) (b : Byte) : (s.putByte a b).i = s.i := rfl
@[simp] theorem putByte_mem (a : Nat) (b : Byte) : (s.putByte a b).mem = Memory.put (initByte s.cfg a) a b s.mem := rfl
@[simp] theorem putByte_stack (a : Nat) (b : Byte) : (s.putByte a b).stack = s.stack := rfl
@[simp] theorem putByte_sp (a : Nat) (b : Byte) : (s.putByte a b).sp = s.sp := rfl
@[simp] theorem putByte_dt (a : Nat) (b : Byte) : (s.putByte a b).dt = s.dt := rfl
@[simp] theorem putByte_st (a : Nat) (b : Byte) : (s.putByte a b).st = s.st := rfl
@[simp] theorem putByte_keys (a : Nat) (b : Byte) : (s.putByte a b).keys = s.keys := rfl
@[simp] theorem putByte_fb (a : Nat) (b : Byte) : (s.putByte a b).fb = s.fb := rfl
@[simp] theorem putByte_redraw (a : Nat) (b : Byte) : (s.putByte a b).redraw = s.redraw := rfl
@[simp] theorem putByte_run (a : Nat) (b : Byte) : (s.putByte a b).run = s.run := rfl
@[simp] theorem putByte_fault (a : Nat) (b : Byte) : (s.putByte a b).fault = s.fault := rfl
@[simp] theorem putByte_beeps (a : Nat) (b : Byte) : (s.putByte a b).beeps = s.beeps := rfl
@[simp] theorem putByte_draws (a : Nat) (b : Byte) : (s.putByte a b).draws = s.draws := rfl
@[simp] theorem putByte_getV (a : Nat) (b : Byte) (q : Reg) : (s.putByte a b).getV q = s.getV q := rfl
@[simp] theorem putByte_getKey (a : Nat) (b : Byte) (q : Fin 16) : (s.putByte a b).getKey q = s.getKey q := rfl
@[simp] theorem putByte_getSlot (a : Nat) (b : Byte) (q : Fin 16) : (s.putByte a b).getSlot q = s.getSlot q := rfl
@[simp] theorem putByte_getPixel (a : Nat) (b : Byte) (qx : Fin 64) (qy : Fin 32) : (s.putByte a b).getPixel qx qy = s.getPixel qx qy := rfl

/-! ### The indexed accessors at an update of their own field -/

@[simp] theorem setV_getV (x : Reg) (b : Byte) (q : Reg) : (s.setV x b).getV q = if q = x then b else s.getV q := by
  simp [State.setV, State.getV, Vector.getElem_set, Fin.ext_iff, eq_comm]

@[simp] theorem setKey_getKey (k : Fin 16) (b : Bool) (q : Fin 16) :
    (s.setKey k b).getKey q = if q = k then b else s.getKey q := by
  simp [State.setKey, State.getKey, Vector.getElem_set, Fin.ext_iff, eq_comm]

@[simp] theorem setStack_getSlot (k : Fin 16) (w : Word) (d : Fin 17) (q : Fin 16) :
    (s.setStack k w d).getSlot q = if q = k then w else s.getSlot q := by
  simp [State.setStack, State.getSlot, Vector.getElem_set, Fin.ext_iff, eq_comm]

@[simp] theorem putPixel_getPixel (px : Fin 64) (py : Fin 32) (b : Bool) (qx : Fin 64) (qy : Fin 32) :
    (s.putPixel px py b).getPixel qx qy = if qx = px ∧ qy = py then b else s.getPixel qx qy := by
  simp only [State.putPixel, State.getPixel, Vector.getElem_set, Fin.ext_iff, eq_comm (a := qx.val), eq_comm (a := qy.val)]
  by_cases h : px.val = qx.val <;> simp [h, Vector.getElem_set]

@[simp] theorem clearAll_getPixel (qx : Fin 64) (qy : Fin 32) : s.clearAll.getPixel qx qy = false := by
  simp [State.clearAll, State.getPixel]

@[simp] theorem setPixel_eq (px : Fin 64) (py : Fin 32) : s.setPixel px py = s.putPixel px py true := rfl

@[simp] theorem clearPixel_eq (px : Fin 64) (py : Fin 32) : s.clearPixel px py = s.putPixel px py false := rfl

end Sys2Proof.Machine
end

