-- ==== Sys2Proof/Laws/Memory.lean ====
section
/-!
SUPPORT. The memory list: a read after a write, and the canonical form kept by every memory operation (log 7).
-/

namespace Sys2Proof.Machine

theorem listed_erase_same (a : Nat) (m : Memory) : Memory.listed a (Memory.erase a m) = none := by
  induction m with
  | nil => rfl
  | cons c m ih =>
    by_cases h : c.1 = a <;> simp_all [Memory.erase, Memory.listed]

theorem listed_erase_other {a a' : Nat} (h : a' ≠ a) (m : Memory) :
    Memory.listed a' (Memory.erase a m) = Memory.listed a' m := by
  induction m with
  | nil => rfl
  | cons c m ih =>
    simp only [Memory.erase] at ih
    by_cases hc : c.1 = a
    · have : c.1 ≠ a' := fun e => h (e.symm.trans hc)
      simp_all [Memory.erase, Memory.listed]
    · simp_all [Memory.erase, Memory.listed]

theorem listed_insert_same (a : Nat) (b : Byte) (m : Memory) (h : Memory.listed a m = none) :
    Memory.listed a (Memory.insert a b m) = some b := by
  induction m with
  | nil => simp [Memory.insert, Memory.listed]
  | cons c m ih =>
    simp only [Memory.listed] at h
    split at h
    · cases h
    · rename_i hc
      simp only [Memory.insert]
      split <;> simp_all [Memory.listed]

theorem listed_insert_other {a a' : Nat} (h : a' ≠ a) (b : Byte) (m : Memory) :
    Memory.listed a' (Memory.insert a b m) = Memory.listed a' m := by
  induction m with
  | nil => simp [Memory.insert, Memory.listed, h.symm]
  | cons c m ih =>
    simp only [Memory.insert]
    split <;> simp_all [Memory.listed, h.symm]

/-- A read after a write of the same address gives the byte written. -/
theorem get_put_same (d : Byte) (a : Nat) (b : Byte) (m : Memory) : Memory.get d a (Memory.put d a b m) = b := by
  unfold Memory.get Memory.put
  split
  · simp_all [listed_erase_same]
  · rw [listed_insert_same _ _ _ (listed_erase_same a m)]; rfl

/-- A write leaves every other address alone. -/
theorem get_put_other {a a' : Nat} (h : a' ≠ a) (d d' : Byte) (b : Byte) (m : Memory) :
    Memory.get d' a' (Memory.put d a b m) = Memory.get d' a' m := by
  unfold Memory.get Memory.put
  split
  · rw [listed_erase_other h]
  · rw [listed_insert_other h, listed_erase_other h]

@[simp] theorem putByte_readByte (s : State) (a : Nat) (b : Byte) (q : Nat) :
    (s.putByte a b).readByte q = if q = a then b else s.readByte q := by
  unfold State.readByte State.putByte
  split
  · next h => subst h; exact get_put_same ..
  · next h => exact get_put_other h ..

theorem mem_insert {a : Nat} {b : Byte} {m : Memory} {p : Host.Cell} (h : p ∈ Memory.insert a b m) :
    p = (a, b) ∨ p ∈ m := by
  induction m with
  | nil => simpa [Memory.insert] using h
  | cons c m ih =>
    simp only [Memory.insert] at h
    split at h
    · simpa using h
    · rcases List.mem_cons.1 h with h | h
      · simp [h]
      · rcases ih h with h | h <;> simp [h]

theorem sorted_insert {a : Nat} {b : Byte} {m : Memory} (h : m.Pairwise fun p q => p.1 < q.1)
    (ha : ∀ p ∈ m, p.1 ≠ a) : (Memory.insert a b m).Pairwise fun p q => p.1 < q.1 := by
  induction m with
  | nil => simp [Memory.insert]
  | cons c m ih =>
    simp only [Memory.insert]
    rw [List.pairwise_cons] at h
    split
    · next hlt =>
      refine List.pairwise_cons.2 ⟨fun p hp => ?_, List.pairwise_cons.2 h⟩
      rcases List.mem_cons.1 hp with rfl | hp
      · exact hlt
      · exact hlt.trans (h.1 p hp)
    · next hlt =>
      refine List.pairwise_cons.2 ⟨fun p hp => ?_, ih h.2 fun p hp => ha p (by simp [hp])⟩
      rcases mem_insert hp with rfl | hp
      · have := ha c (by simp)
        simp only; omega
      · exact h.1 p hp

/-- A write inside the memory keeps the canonical form. -/
theorem wf_put {c : Config} {m : Memory} (h : Memory.wf c m) {a : Nat} (ha : a < c.memSize) (b : Byte) :
    Memory.wf c (Memory.put (initByte c a) a b m) := by
  have he : Memory.wf c (Memory.erase a m) :=
    ⟨h.1.filter _, fun p hp => h.2 p (List.mem_of_mem_filter hp)⟩
  unfold Memory.put
  split
  · exact he
  · next hb =>
    refine ⟨sorted_insert he.1 fun p hp => by simpa [Memory.erase] using (List.mem_filter.1 hp).2, fun p hp => ?_⟩
    rcases mem_insert hp with rfl | hp
    · exact ⟨ha, hb⟩
    · exact he.2 p hp

theorem putByte_wf {s : State} (h : Memory.wf s.cfg s.mem) {a : Nat} (ha : a < s.cfg.memSize) (b : Byte) :
    Memory.wf (s.putByte a b).cfg (s.putByte a b).mem := wf_put h ha b

theorem wf_nil (c : Config) : Memory.wf c [] := ⟨List.Pairwise.nil, by simp⟩

end Sys2Proof.Machine
end

