-- ==== Sys2Proof/Laws/Ops.lean ====
section
/-!
SUPPORT. One lemma per shared operation that says everything it can do: the memory port, loops of a body, push and pop, skips,
the two writes of a flag instruction, Tick.
-/

namespace Sys2Proof.Machine

/-! ## Reaching a byte (R64) -/

theorem resolve_inside {c : Config} {a : Nat} (h : a < c.memSize) : resolve c a = .ok a := by simp [resolve, h]

/-- Everything a reached address can be. -/
theorem resolve_ok {c : Config} {addr a : Nat} (h : resolve c addr = .ok a) :
    (addr < c.memSize ∧ a = addr) ∨ (c.memSize ≤ addr ∧ c.memOob = .wrap ∧ a = addr % c.memSize) := by
  unfold resolve at h
  split at h
  · next hlt => exact .inl ⟨hlt, by simpa using h.symm⟩
  · next hlt =>
    split at h
    · cases h
    · next hw => exact .inr ⟨Nat.not_lt.1 hlt, hw, by simpa using h.symm⟩

/-- Everything a refused address can be. -/
theorem resolve_error {c : Config} {addr : Nat} {f : Fault} (h : resolve c addr = .error f) :
    c.memSize ≤ addr ∧ c.memOob = .fault ∧ f = .memoryOutOfRange addr := by
  unfold resolve at h
  split at h
  · cases h
  · next hlt =>
    split at h
    · next hf => exact ⟨Nat.not_lt.1 hlt, hf, by simpa using h.symm⟩
    · cases h

theorem memSize_pos {c : Config} (h : c.wf = true) : 80 ≤ c.memSize := by
  simp only [Config.wf, Bool.and_eq_true, decide_eq_true_eq] at h; omega

theorem resolve_lt {c : Config} (hc : c.wf = true) {addr a : Nat} (h : resolve c addr = .ok a) : a < c.memSize := by
  have := memSize_pos hc
  rcases resolve_ok h with ⟨h, rfl⟩ | ⟨_, _, rfl⟩
  · exact h
  · exact Nat.mod_lt _ (by omega)

/-- Addresses less than a memory apart reach different bytes. -/
theorem resolve_inj {c : Config} {p q a : Nat} (hp : resolve c p = .ok a) (hq : resolve c q = .ok a)
    (h : p ≤ q) (hd : q < p + c.memSize) : p = q := by
  have key : p % c.memSize = q % c.memSize := by
    rcases resolve_ok hp with ⟨h1, rfl⟩ | ⟨_, _, e1⟩ <;> rcases resolve_ok hq with ⟨h2, e2⟩ | ⟨_, _, e2⟩
    · rw [← e2]
    · rw [← e2, Nat.mod_eq_of_lt h1]
    · rw [← e1, e2, Nat.mod_eq_of_lt h2]
    · rw [← e1, ← e2]
  have h0 : (q - p) % c.memSize = 0 := Nat.sub_mod_eq_zero_of_mod_eq key.symm
  have := Nat.mod_eq_of_lt (show q - p < c.memSize by omega)
  omega

theorem memRead_eq_ok {addr : Nat} {s : State} {b : Byte} :
    memRead addr s = .ok b ↔ ∃ a, resolve s.cfg addr = .ok a ∧ s.readByte a = b := by
  unfold memRead; split <;> simp_all

theorem memRead_eq_error {addr : Nat} {s : State} {f : Fault} :
    memRead addr s = .error f ↔ resolve s.cfg addr = .error f := by
  unfold memRead; split <;> simp_all

theorem memRead_inside {addr : Nat} {s : State} (h : addr < s.cfg.memSize) : memRead addr s = .ok (s.readByte addr) := by
  simp [memRead, resolve_inside h]

/-- A read sees only the configuration and the bytes. -/
theorem memRead_congr {s t : State} (hc : t.cfg = s.cfg) (hb : ∀ a, t.readByte a = s.readByte a) (addr : Nat) :
    memRead addr t = memRead addr s := by
  simp [memRead, hc, hb]

theorem memWrite_eq_done {addr : Nat} {v : Byte} {s t : State} :
    memWrite addr v s = .done t ↔ ∃ a, resolve s.cfg addr = .ok a ∧ t = s.putByte a v := by
  unfold memWrite; cases resolve s.cfg addr <;> simp [eq_comm]

theorem memWrite_eq_raised {addr : Nat} {v : Byte} {s t : State} {f : Fault} :
    memWrite addr v s = .raised f t ↔ resolve s.cfg addr = .error f ∧ t = s := by
  unfold memWrite; cases resolve s.cfg addr <;> simp [eq_comm]

/-! ## Bodies (R261) -/

@[simp] theorem andThen_done (s : State) (f : State → Body) : (Body.done s).andThen f = f s := rfl
@[simp] theorem andThen_raised (e : Fault) (s : State) (f : State → Body) :
    (Body.raised e s).andThen f = .raised e s := rfl
@[simp] theorem outcome_done (s : State) : (Body.done s).outcome = .next s := rfl
@[simp] theorem outcome_raised (f : Fault) (s : State) : (Body.raised f s).outcome = .next (takeFault f s) := rfl
@[simp] theorem forEach_nil {α : Type} (f : α → State → Body) (s : State) : Body.forEach f [] s = .done s := rfl
@[simp] theorem forEach_cons {α : Type} (f : α → State → Body) (a : α) (l : List α) (s : State) :
    Body.forEach f (a :: l) s = (f a s).andThen (Body.forEach f l) := rfl

@[simp] theorem takeFault_eq (f : Fault) (s : State) : takeFault f s = s.recordFault ⟨f, s.pc - 2⟩ := rfl
@[simp] theorem takeFetchFault_eq (f : Fault) (s : State) : takeFetchFault f s = s.recordFault ⟨f, s.pc⟩ := rfl

theorem forEach_append {α : Type} (f : α → State → Body) (l m : List α) (s : State) :
    Body.forEach f (l ++ m) s = (Body.forEach f l s).andThen (Body.forEach f m) := by
  induction l generalizing s with
  | nil => rfl
  | cons a l ih =>
    simp only [List.cons_append, forEach_cons]
    cases f a s with
    | done t => simpa using ih t
    | raised e t => rfl

/-- The state a body ends in, whether it ran to its end or raised. -/
def Body.state : Body → State
  | .done s => s
  | .raised _ s => s

@[simp] theorem state_done (s : State) : (Body.done s).state = s := rfl
@[simp] theorem state_raised (f : Fault) (s : State) : (Body.raised f s).state = s := rfl

/-- A relation that every pass of a loop keeps holds from its start to where it ends. -/
theorem forEach_keeps {α : Type} {P : State → State → Prop} (hr : ∀ s, P s s)
    (ht : ∀ s t u, P s t → P t u → P s u) {f : α → State → Body} (hf : ∀ a s, P s (f a s).state)
    (l : List α) (s : State) : P s (Body.forEach f l s).state := by
  induction l generalizing s with
  | nil => exact hr s
  | cons a l ih =>
    have h := hf a s
    simp only [forEach_cons]
    cases hfa : f a s with
    | done t => rw [hfa] at h; exact ht _ _ _ h (ih t)
    | raised e t => rw [hfa] at h; exact h

/-- The outcome of a body: its state, with the fault taken if it raised. -/
theorem outcome_cases (r : Body) :
    (r = .done r.state ∧ r.outcome = .next r.state) ∨ (∃ f, r = .raised f r.state ∧ r.outcome = .next (takeFault f r.state)) := by
  cases r with
  | done s => exact .inl ⟨rfl, rfl⟩
  | raised f s => exact .inr ⟨f, rfl, rfl⟩

/-! ## The call stack (R41, R42) -/

theorem push_of_lt {s : State} {w : Word} (h : s.sp.val < 16) :
    push w s = .done (s.setStack ⟨s.sp.val, h⟩ w ⟨s.sp.val + 1, by omega⟩) := by simp [push, h]

theorem push_full {s : State} {w : Word} (h : s.sp.val = 16) : push w s = .raised (.stackOverflow w) s := by
  simp [push, h]

theorem pop_of_pos {s : State} (h : 0 < s.sp.val) :
    pop s = .ok (s.getSlot ⟨s.sp.val - 1, by omega⟩, s.setSp ⟨s.sp.val - 1, by omega⟩) := by simp [pop, h]

theorem pop_empty {s : State} (h : s.sp.val = 0) : pop s = .error .stackUnderflow := by simp [pop, h]

/-! ## Skips (R128) -/

theorem skipIf_eq (b : Bool) (s : State) : skipIf b s = s.setPc (if b = true then s.pc + 2 else s.pc) := by
  cases b <;> rfl

@[simp] theorem advancePc_eq (s : State) : advancePc s = s.setPc (s.pc + 2) := rfl

/-! ## Tick (R126) -/

/-- Tick, as the three fields it writes. -/
theorem tick_eq (s : State) : tick s =
    { s with dt := if s.dt = 0 then 0 else s.dt - 1, st := if s.st = 0 then 0 else s.st - 1,
             beeps := if s.st = 1 then s.beeps + 1 else s.beeps } := by
  unfold tick tickSound tickDelay
  by_cases hd : s.dt = 0 <;> by_cases hs : s.st = 0 <;> by_cases h1 : s.st = 1 <;>
    cases s <;> simp_all [State.setDT, State.setST, State.beep]

/-- A counter that counts down by one with a floor of zero. -/
theorem countdown_toNat (b : Byte) : (if b = 0 then 0 else b - 1 : Byte).toNat = b.toNat - 1 := by
  split
  · next h => simp [h]
  · next h =>
    have : b.toNat ≠ 0 := fun e => h (BitVec.eq_of_toNat_eq (by simpa using e))
    have := b.isLt
    rw [BitVec.toNat_sub]; simp; omega

theorem tick_dt_toNat (s : State) : (tick s).dt.toNat = s.dt.toNat - 1 := by rw [tick_eq]; exact countdown_toNat _
theorem tick_st_toNat (s : State) : (tick s).st.toNat = s.st.toNat - 1 := by rw [tick_eq]; exact countdown_toNat _
theorem tick_beeps (s : State) : (tick s).beeps = if s.st.toNat = 1 then s.beeps + 1 else s.beeps := by
  rw [tick_eq]; simp [← BitVec.toNat_inj]

@[simp] theorem tick_cfg (s : State) : (tick s).cfg = s.cfg := by rw [tick_eq]
@[simp] theorem tick_v (s : State) : (tick s).v = s.v := by rw [tick_eq]
@[simp] theorem tick_pc (s : State) : (tick s).pc = s.pc := by rw [tick_eq]
@[simp] theorem tick_i (s : State) : (tick s).i = s.i := by rw [tick_eq]
@[simp] theorem tick_mem (s : State) : (tick s).mem = s.mem := by rw [tick_eq]
@[simp] theorem tick_stack (s : State) : (tick s).stack = s.stack := by rw [tick_eq]
@[simp] theorem tick_sp (s : State) : (tick s).sp = s.sp := by rw [tick_eq]
@[simp] theorem tick_keys (s : State) : (tick s).keys = s.keys := by rw [tick_eq]
@[simp] theorem tick_fb (s : State) : (tick s).fb = s.fb := by rw [tick_eq]
@[simp] theorem tick_redraw (s : State) : (tick s).redraw = s.redraw := by rw [tick_eq]
@[simp] theorem tick_run (s : State) : (tick s).run = s.run := by rw [tick_eq]
@[simp] theorem tick_fault (s : State) : (tick s).fault = s.fault := by rw [tick_eq]
@[simp] theorem tick_draws (s : State) : (tick s).draws = s.draws := by rw [tick_eq]
@[simp] theorem tick_getV (s : State) (q : Reg) : (tick s).getV q = s.getV q := by rw [tick_eq]; rfl
@[simp] theorem tick_getKey (s : State) (q : Fin 16) : (tick s).getKey q = s.getKey q := by rw [tick_eq]; rfl
@[simp] theorem tick_getSlot (s : State) (q : Fin 16) : (tick s).getSlot q = s.getSlot q := by rw [tick_eq]; rfl
@[simp] theorem tick_getPixel (s : State) (qx : Fin 64) (qy : Fin 32) : (tick s).getPixel qx qy = s.getPixel qx qy := by rw [tick_eq]; rfl
@[simp] theorem tick_readByte (s : State) (q : Nat) : (tick s).readByte q = s.readByte q := by rw [tick_eq]; rfl

/-! ## The two writes of a flag instruction (R179) -/

theorem writeFlagged_getV (x : Reg) (flag result : Byte) (s : State) (q : Reg) :
    (writeFlagged x flag result s).getV q = match s.cfg.vfDestOrder with
      | .flagThenResult => if q = x then result else if q = VF then flag else s.getV q
      | .resultThenFlag => if q = VF then flag else if q = x then result else s.getV q := by
  unfold writeFlagged; split <;> simp_all

@[simp] theorem writeFlagged_cfg (x : Reg) (b c : Byte) (s : State) : (writeFlagged x b c s).cfg = s.cfg := by
  unfold writeFlagged; split <;> rfl
@[simp] theorem writeFlagged_pc (x : Reg) (b c : Byte) (s : State) : (writeFlagged x b c s).pc = s.pc := by
  unfold writeFlagged; split <;> rfl
@[simp] theorem writeFlagged_i (x : Reg) (b c : Byte) (s : State) : (writeFlagged x b c s).i = s.i := by
  unfold writeFlagged; split <;> rfl
@[simp] theorem writeFlagged_mem (x : Reg) (b c : Byte) (s : State) : (writeFlagged x b c s).mem = s.mem := by
  unfold writeFlagged; split <;> rfl
@[simp] theorem writeFlagged_stack (x : Reg) (b c : Byte) (s : State) : (writeFlagged x b c s).stack = s.stack := by
  unfold writeFlagged; split <;> rfl
@[simp] theorem writeFlagged_sp (x : Reg) (b c : Byte) (s : State) : (writeFlagged x b c s).sp = s.sp := by
  unfold writeFlagged; split <;> rfl
@[simp] theorem writeFlagged_dt (x : Reg) (b c : Byte) (s : State) : (writeFlagged x b c s).dt = s.dt := by
  unfold writeFlagged; split <;> rfl
@[simp] theorem writeFlagged_st (x : Reg) (b c : Byte) (s : State) : (writeFlagged x b c s).st = s.st := by
  unfold writeFlagged; split <;> rfl
@[simp] theorem writeFlagged_keys (x : Reg) (b c : Byte) (s : State) : (writeFlagged x b c s).keys = s.keys := by
  unfold writeFlagged; split <;> rfl
@[simp] theorem writeFlagged_fb (x : Reg) (b c : Byte) (s : State) : (writeFlagged x b c s).fb = s.fb := by
  unfold writeFlagged; split <;> rfl
@[simp] theorem writeFlagged_redraw (x : Reg) (b c : Byte) (s : State) : (writeFlagged x b c s).redraw = s.redraw := by
  unfold writeFlagged; split <;> rfl
@[simp] theorem writeFlagged_run (x : Reg) (b c : Byte) (s : State) : (writeFlagged x b c s).run = s.run := by
  unfold writeFlagged; split <;> rfl
@[simp] theorem writeFlagged_fault (x : Reg) (b c : Byte) (s : State) : (writeFlagged x b c s).fault = s.fault := by
  unfold writeFlagged; split <;> rfl
@[simp] theorem writeFlagged_beeps (x : Reg) (b c : Byte) (s : State) : (writeFlagged x b c s).beeps = s.beeps := by
  unfold writeFlagged; split <;> rfl
@[simp] theorem writeFlagged_draws (x : Reg) (b c : Byte) (s : State) : (writeFlagged x b c s).draws = s.draws := by
  unfold writeFlagged; split <;> rfl
@[simp] theorem writeFlagged_getKey (x : Reg) (b c : Byte) (s : State) (q : Fin 16) :
    (writeFlagged x b c s).getKey q = s.getKey q := by
  unfold writeFlagged; split <;> rfl
@[simp] theorem writeFlagged_getSlot (x : Reg) (b c : Byte) (s : State) (q : Fin 16) :
    (writeFlagged x b c s).getSlot q = s.getSlot q := by
  unfold writeFlagged; split <;> rfl
@[simp] theorem writeFlagged_getPixel (x : Reg) (b c : Byte) (s : State) (qx : Fin 64) (qy : Fin 32) :
    (writeFlagged x b c s).getPixel qx qy = s.getPixel qx qy := by
  unfold writeFlagged; split <;> rfl
@[simp] theorem writeFlagged_readByte (x : Reg) (b c : Byte) (s : State) (q : Nat) :
    (writeFlagged x b c s).readByte q = s.readByte q := by
  unfold writeFlagged; split <;> rfl

end Sys2Proof.Machine
end

