-- ==== Sys2Proof/Laws/Loops.lean ====
section
/-!
SUPPORT. What the loops of FX33, FX55 and FX65 do, when every byte is in reach and when one is not (spec/43_index_memory.md R191).
-/

namespace Sys2Proof.Machine

/-! ## Stores -/

/-- A store that reaches a byte changes that byte and nothing else. -/
theorem onlyMemory_putByte (s : State) (a : Nat) (b : Byte) : OnlyMemory s (s.putByte a b) := by
  simp [OnlyMemory, RegsKept, CoreKept, StackKept, TimersKept, DisplayKept, KeysKept, EnvKept]

theorem onlyMemory_refl (s : State) : OnlyMemory s s := by
  simp [OnlyMemory, RegsKept, CoreKept, StackKept, TimersKept, DisplayKept, KeysKept, EnvKept]

theorem onlyMemory_trans {s t u : State} (h : OnlyMemory s t) (g : OnlyMemory t u) : OnlyMemory s u := by
  simp only [OnlyMemory, RegsKept, CoreKept, StackKept, TimersKept, DisplayKept, KeysKept, EnvKept] at *
  simp_all

theorem onlyMemory_cfg {s t : State} (h : OnlyMemory s t) : t.cfg = s.cfg := h.2.2.1.2.2.2.2.2.2.1

theorem onlyMemory_i {s t : State} (h : OnlyMemory s t) : t.i = s.i := h.2.1

/-- FX55's passes store the registers as they are at its start, since no store changes a register. -/
theorem forEach_storeReg (l : List Reg) (s : State) :
    Body.forEach storeReg l s = Body.forEach storeCell (l.map fun r => (r.val, s.getV r)) s := by
  induction l generalizing s with
  | nil => rfl
  | cons r l ih =>
    simp only [forEach_cons, List.map_cons, storeReg, storeCell]
    cases h : memWrite (effAddr s r.val) (s.getV r) s with
    | raised f t => rfl
    | done t =>
      obtain ⟨a, -, rfl⟩ := memWrite_eq_done.1 h
      simp [ih]

/-- The cells `(0, val 0), …, (n - 1, val (n - 1))`. -/
def cellsBelow (n : Nat) (val : Nat → Byte) : List (Nat × Byte) := (List.range n).map fun k => (k, val k)

theorem bcdDigits_eq (b : Byte) (digit : Nat → Byte) (h0 : (digit 0).toNat = b.toNat / 100)
    (h1 : (digit 1).toNat = b.toNat / 10 % 10) (h2 : (digit 2).toNat = b.toNat % 10) :
    bcdDigits b = cellsBelow 3 digit := by
  have := b.isLt
  simp only [bcdDigits, cellsBelow, List.range, List.range.loop, List.map_cons, List.map_nil, List.cons.injEq,
    Prod.mk.injEq, true_and, and_true, ← BitVec.toNat_inj, BitVec.toNat_ofNat, h0, h1, h2]
  omega

theorem regsUpTo_map (x : Reg) (s : State) (val : Nat → Byte) (h : ∀ r : Reg, r ≤ x → val r.val = s.getV r) :
    ((regsUpTo x).map fun r => (r.val, s.getV r)) = cellsBelow (x.val + 1) val := by
  apply List.ext_getElem
  · simp [regsUpTo, cellsBelow]
  · intro n h1 h2
    simp only [regsUpTo, List.length_map, List.length_take, List.length_finRange] at h1
    simp only [regsUpTo, cellsBelow, List.getElem_map, List.getElem_take, List.getElem_finRange, List.getElem_range,
      Fin.val_cast, Prod.mk.injEq, true_and]
    exact (h ⟨n, by omega⟩ (by simp [Fin.le_def]; omega)).symm

/-- A run of stores that all reach a byte stores them all. -/
theorem storeCells_done {s : State} (hc : s.cfg.wf = true) (val : Nat → Byte) :
    ∀ n, n ≤ 16 → (∀ k < n, ∃ a, resolve s.cfg (effAddr s k) = .ok a) →
      ∃ t, Body.forEach storeCell (cellsBelow n val) s = .done t ∧ OnlyMemory s t ∧ BytesStored n val s t := by
  intro n
  induction n with
  | zero => exact fun _ _ => ⟨s, rfl, onlyMemory_refl s, by simp [BytesStored]⟩
  | succ n ih =>
    intro hn h
    obtain ⟨t, ht, hm, hs⟩ := ih (by omega) fun k hk => h k (by omega)
    obtain ⟨a, ha⟩ := h n (by omega)
    have hw : storeCell (n, val n) t = .done (t.putByte a (val n)) :=
      memWrite_eq_done.2 ⟨a, by simpa [effAddr, onlyMemory_cfg hm, onlyMemory_i hm] using ha, rfl⟩
    refine ⟨t.putByte a (val n), ?_, onlyMemory_trans hm (onlyMemory_putByte ..), fun k hk q hq => ?_, fun q hq => ?_⟩
    · rw [cellsBelow, List.range_succ, List.map_append, forEach_append, ← cellsBelow, ht]
      simp [hw]
    · rw [putByte_readByte]
      rcases Nat.lt_succ_iff_lt_or_eq.1 hk with hk | rfl
      · rw [if_neg, hs.1 k hk q hq]
        rintro rfl
        have := memSize_pos hc
        have := resolve_inj hq ha (by simp [effAddr]; omega) (by simp [effAddr]; omega)
        simp [effAddr] at this; omega
      · rw [ha] at hq; cases hq; simp
    · rw [putByte_readByte, if_neg, hs.2 q fun k hk => hq k (by omega)]
      rintro rfl; exact hq n (by omega) ha

/-- A run of stores whose `k`-th does not reach a byte stores the ones before it and raises. -/
theorem storeCells_raised {s : State} (hc : s.cfg.wf = true) (val : Nat → Byte) {n k : Nat} (hn : n ≤ 16) (hk : k < n)
    {f : Fault} (h : ∀ j < k, ∃ a, resolve s.cfg (effAddr s j) = .ok a) (hf : resolve s.cfg (effAddr s k) = .error f) :
    ∃ t, Body.forEach storeCell (cellsBelow n val) s = .raised f t ∧ OnlyMemory s t ∧ BytesStored k val s t := by
  obtain ⟨t, ht, hm, hs⟩ := storeCells_done hc val k (by omega) h
  have hw : storeCell (k, val k) t = .raised f t :=
    memWrite_eq_raised.2 ⟨by simpa [effAddr, onlyMemory_cfg hm, onlyMemory_i hm] using hf, rfl⟩
  refine ⟨t, ?_, hm, hs⟩
  obtain ⟨m, rfl⟩ := Nat.exists_eq_add_of_lt hk
  rw [cellsBelow, show k + m + 1 = k + (1 + m) by omega, List.range_add, List.map_append, forEach_append, ← cellsBelow, ht]
  simp [List.range_succ_eq_map, Nat.add_comm 1 m, hw]

/-! ## Loads -/

/-- Everything but the general registers is unchanged. -/
def RegsOnly (s t : State) : Prop := t = { s with v := t.v }

/-- The registers below `n` have been loaded from `I` on, and the others are unchanged. -/
def RegsLoaded (n : Nat) (s t : State) : Prop :=
  (∀ r : Reg, r.val < n → memRead (effAddr s r.val) s = .ok (t.getV r)) ∧ (∀ r : Reg, n ≤ r.val → t.getV r = s.getV r)

theorem loads_done {s : State} : ∀ n, n ≤ 16 → (∀ k < n, ∃ b, memRead (effAddr s k) s = .ok b) →
    ∃ t, Body.forEach loadReg ((List.finRange 16).take n) s = .done t ∧ RegsOnly s t ∧ RegsLoaded n s t := by
  intro n
  induction n with
  | zero => exact fun _ _ => ⟨s, rfl, rfl, by simp [RegsLoaded]⟩
  | succ n ih =>
    intro hn h
    obtain ⟨t, ht, hr, hl⟩ := ih (by omega) fun k hk => h k (by omega)
    obtain ⟨b, hb⟩ := h n (by omega)
    have hw : loadReg ⟨n, hn⟩ t = .done (t.setV ⟨n, hn⟩ b) := by
      have : memRead (effAddr t n) t = .ok b := by rw [hr]; exact hb
      simp [loadReg, this]
    refine ⟨t.setV ⟨n, hn⟩ b, ?_, ?_, fun r hlt => ?_, fun r hge => ?_⟩
    · rw [List.take_succ_eq_append_getElem (by simpa using hn), forEach_append, ht]
      simp [hw]
    · rw [hr]; rfl
    · rcases Nat.lt_succ_iff_lt_or_eq.1 hlt with hlt | rfl
      · rw [setV_getV, if_neg (by simp [Fin.ext_iff]; omega)]; exact hl.1 r hlt
      · rw [setV_getV, if_pos rfl]; exact hb
    · rw [setV_getV, if_neg (by simp [Fin.ext_iff]; omega)]; exact hl.2 r (by omega)

theorem loads_raised {s : State} {n k : Nat} (hn : n ≤ 16) (hk : k < n) {f : Fault}
    (h : ∀ j < k, ∃ b, memRead (effAddr s j) s = .ok b) (hf : memRead (effAddr s k) s = .error f) :
    ∃ t, Body.forEach loadReg ((List.finRange 16).take n) s = .raised f t ∧ RegsOnly s t ∧ RegsLoaded k s t := by
  obtain ⟨t, ht, hr, hl⟩ := loads_done (s := s) k (by omega) h
  have hw : loadReg ⟨k, by omega⟩ t = .raised f t := by
    have : memRead (effAddr t k) t = .error f := by rw [hr]; exact hf
    simp [loadReg, this]
  refine ⟨t, ?_, hr, hl⟩
  have hsplit : (List.finRange 16).take n = (List.finRange 16).take k ++ ⟨k, by omega⟩ :: ((List.finRange 16).take n).drop (k + 1) := by
    have e := List.take_append_drop k ((List.finRange 16).take n)
    rw [List.take_take, Nat.min_eq_left (by omega), List.drop_eq_getElem_cons (by simp; omega)] at e
    simpa using e.symm
  rw [hsplit, forEach_append, ht]
  simp [hw]

end Sys2Proof.Machine
end

