-- ==== Sys2Proof/Laws/Draw.lean ====
section
/-!
SUPPORT. What the loops of DXYN do: cell after cell is composed onto the grid (spec/44_display.md R214, R217, R218).
-/

namespace Sys2Proof.Machine

/-! ## Targets -/

/-- A target pixel is the coordinate modulo the grid, under every policy. -/
theorem target_some {c : Config} {px py : Nat} {qx : Fin 64} {qy : Fin 32} (h : target c px py = .ok (some (qx, qy))) :
    qx.val = px % 64 ∧ qy.val = py % 32 := by
  unfold target at h
  split at h
  · next hg =>
    simp only [Except.ok.injEq, Option.some.injEq, Prod.mk.injEq] at h
    obtain ⟨rfl, rfl⟩ := h
    exact ⟨(Nat.mod_eq_of_lt hg.1).symm, (Nat.mod_eq_of_lt hg.2).symm⟩
  · split at h
    · cases h
    · cases h
    · simp only [Except.ok.injEq, Option.some.injEq, Prod.mk.injEq] at h
      obtain ⟨rfl, rfl⟩ := h
      exact ⟨rfl, rfl⟩

/-- Two cells of one sprite never have the same target. -/
theorem target_inj {c : Config} {cx cy j k i m : Nat} {p : Fin 64 × Fin 32} (hj : j < 8) (hi : i < 8) (hk : k < 16) (hm : m < 16)
    (h : target c (cx + j) (cy + k) = .ok (some p)) (g : target c (cx + i) (cy + m) = .ok (some p)) : k = m ∧ j = i := by
  obtain ⟨qx, qy⟩ := p
  have h1 := target_some h
  have h2 := target_some g
  omega

/-! ## One cell -/

/-- Composing one bit onto one pixel, as the two things it writes. -/
theorem xorPixel_eq (px : Fin 64) (py : Fin 32) (bit : Bool) (s : State) :
    xorPixel px py bit s = (if collides s.cfg (s.getPixel px py) bit = true then s.setV VF 1 else s).putPixel px py
      (s.getPixel px py ^^ bit) := by
  simp only [xorPixel, writePixel, markCollision, setPixel_eq, clearPixel_eq]
  generalize (s.getPixel px py ^^ bit) = v
  cases v <;> rfl

/-- The part of a state that no cell changes. -/
def DrawBase (s t : State) : Prop := t = { s with v := t.v, fb := t.fb }

/-- The cells have been composed, VF and pixels aside nothing has changed, and VF is 0 or 1. -/
def Composing (cx cy : Nat) (cells : Nat → Nat → Prop) (s t : State) : Prop :=
  DrawBase s t ∧ RegsKept [VF] s t ∧ SpriteComposed cx cy cells s t

theorem composing_none (cx cy : Nat) (s : State) : Composing cx cy (fun _ _ => False) s (s.setV VF 0) := by
  refine ⟨rfl, fun r hr => ?_, ?_⟩
  · rw [setV_getV, if_neg (by simpa using hr)]
  · simp [SpriteComposed]

theorem composing_congr {cx cy : Nat} {cells cells' : Nat → Nat → Prop} {s t : State}
    (h : ∀ k j, cells k j ↔ cells' k j) (hc : Composing cx cy cells s t) : Composing cx cy cells' s t := by
  have : cells = cells' := by funext k j; exact propext (h k j)
  exact this ▸ hc

/-- Reading the row's byte during a draw gives what it gave before the draw. -/
theorem memRead_drawBase {s t : State} (h : DrawBase s t) (k : Nat) : memRead (effAddr t k) t = memRead (effAddr s k) s := by
  rw [h]; rfl

/-- A cell with no pixel changes nothing. -/
theorem composing_skip {cx cy : Nat} {cells : Nat → Nat → Prop} {s t : State} (hc : Composing cx cy cells s t) {k j : Nat}
    (h : target s.cfg (cx + j) (cy + k) = .ok none) :
    Composing cx cy (fun i c => cells i c ∨ (i = k ∧ c = j)) s t := by
  obtain ⟨hb, hr, h1, h2, h3, h4⟩ := hc
  have no : ∀ {px py bit}, ¬SpriteCell s cx cy k j px py bit := fun hs => by rw [SpriteCell, h] at hs; simp at hs
  refine ⟨hb, hr, fun i c px py bit hi hs => ?_, fun px py hp => ?_, fun ⟨i, c, px, py, bit, hi, hs, hx⟩ => ?_, fun hx => ?_⟩
  · rcases hi with hi | ⟨rfl, rfl⟩
    · exact h1 i c px py bit hi hs
    · exact (no hs).elim
  · exact h2 px py fun i c hi => hp i c (.inl hi)
  · rcases hi with hi | ⟨rfl, rfl⟩
    · exact h3 ⟨i, c, px, py, bit, hi, hs, hx⟩
    · exact (no hs).elim
  · exact h4 fun i c px py bit hi hs => hx i c px py bit (.inl hi) hs

/-- A cell not yet composed is composed by `xorPixel`. -/
theorem composing_cell {cx cy : Nat} {cells : Nat → Nat → Prop} {s t : State} (hc : Composing cx cy cells s t)
    (hlt : ∀ i c, cells i c → i < 16 ∧ c < 8) {k j : Nat} (hk : k < 16) (hj : j < 8) (hnew : ¬cells k j) {b : Byte}
    (hread : memRead (effAddr s k) s = .ok b) {px : Fin 64} {py : Fin 32}
    (h : target s.cfg (cx + j) (cy + k) = .ok (some (px, py))) :
    Composing cx cy (fun i c => cells i c ∨ (i = k ∧ c = j)) s (xorPixel px py (spriteBit b j) t) := by
  obtain ⟨hb, hr, h1, h2, h3, h4⟩ := hc
  have hcfg : t.cfg = s.cfg := by rw [hb]
  have hold : t.getPixel px py = s.getPixel px py :=
    h2 px py fun i c hi e => hnew (by
      obtain ⟨hi16, hc8⟩ := hlt i c hi
      obtain ⟨rfl, rfl⟩ := target_inj hc8 hj hi16 hk e h
      exact hi)
  have hbit : ∀ {qx qy bit}, SpriteCell s cx cy k j qx qy bit → qx = px ∧ qy = py ∧ bit = spriteBit b j := by
    rintro qx qy bit ⟨ht, b', hb', rfl⟩
    rw [h] at ht; rw [hread] at hb'
    cases ht; cases hb'; exact ⟨rfl, rfl, rfl⟩
  have hself : SpriteCell s cx cy k j px py (spriteBit b j) := ⟨h, b, hread, rfl⟩
  rw [xorPixel_eq, hold, hcfg]
  refine ⟨?_, fun r hr' => ?_, fun i c qx qy bit hi hs => ?_, fun qx qy hp => ?_, fun hx => ?_, fun hx => ?_⟩
  · split <;> (rw [hb]; rfl)
  · have : r ≠ VF := by simpa using hr'
    split <;> simp [this, hr r hr']
  · rcases hi with hi | ⟨rfl, rfl⟩
    · have hne : ¬(qx = px ∧ qy = py) := by
        rintro ⟨rfl, rfl⟩
        obtain ⟨hi16, hc8⟩ := hlt i c hi
        obtain ⟨rfl, rfl⟩ := target_inj hc8 hj hi16 hk hs.1 h
        exact hnew hi
      rw [putPixel_getPixel, if_neg hne]
      have := h1 i c qx qy bit hi hs
      split <;> simpa using this
    · obtain ⟨rfl, rfl, rfl⟩ := hbit hs
      simp
  · have hne : ¬(qx = px ∧ qy = py) := by
      rintro ⟨rfl, rfl⟩; exact hp k j (.inr ⟨rfl, rfl⟩) h
    rw [putPixel_getPixel, if_neg hne]
    have := h2 qx qy fun i c hi => hp i c (.inl hi)
    split <;> simpa using this
  · split
    · simp
    · next hno =>
      obtain ⟨i, c, qx, qy, bit, hi, hs, hx⟩ := hx
      rcases hi with hi | ⟨rfl, rfl⟩
      · simpa using h3 ⟨i, c, qx, qy, bit, hi, hs, hx⟩
      · obtain ⟨rfl, rfl, rfl⟩ := hbit hs
        exact (hno hx).elim
  · rw [if_neg (by simpa using hx k j px py _ (.inr ⟨rfl, rfl⟩) hself)]
    simpa using h4 fun i c qx qy bit hi hs => hx i c qx qy bit (.inl hi) hs

/-! ## The columns of a row -/

/-- The columns below `m` of row `k`, all with a target, are composed. -/
theorem columns_done {cx cy k n : Nat} {s u : State} {b : Byte} (hk : k < n) (hn : n ≤ 16)
    (hu : Composing cx cy (fun i c => i < k ∧ c < 8) s u) (hread : memRead (effAddr s k) s = .ok b) :
    ∀ m, m ≤ 8 → (∀ j < m, ∃ p, target s.cfg (cx + j) (cy + k) = .ok p) →
      ∃ t, Body.forEach (drawColumn cx (cy + k) b) (List.range m) u = .done t ∧
        Composing cx cy (fun i c => (i < k ∧ c < 8) ∨ (i = k ∧ c < m)) s t := by
  intro m
  induction m with
  | zero => exact fun _ _ => ⟨u, rfl, composing_congr (by simp) hu⟩
  | succ m ih =>
    intro hm h
    obtain ⟨t, ht, hc⟩ := ih (by omega) fun j hj => h j (by omega)
    obtain ⟨p, hp⟩ := h m (by omega)
    have hcfg : t.cfg = s.cfg := by rw [hc.1]
    have goal : ∀ w, drawColumn cx (cy + k) b m t = .done w →
        Composing cx cy (fun i c => ((i < k ∧ c < 8) ∨ (i = k ∧ c < m)) ∨ (i = k ∧ c = m)) s w →
        ∃ w, Body.forEach (drawColumn cx (cy + k) b) (List.range (m + 1)) u = .done w ∧
          Composing cx cy (fun i c => (i < k ∧ c < 8) ∨ (i = k ∧ c < m + 1)) s w := fun w hw hcw =>
      ⟨w, by rw [List.range_succ, forEach_append, ht]; simp [hw], composing_congr (fun i c => by omega) hcw⟩
    cases p with
    | none => exact goal t (by simp [drawColumn, hcfg, hp]) (composing_skip hc hp)
    | some q =>
      obtain ⟨px, py⟩ := q
      exact goal _ (by simp [drawColumn, hcfg, hp])
        (composing_cell hc (fun i c hi => by omega) (by omega) (by omega) (by omega) hread hp)

/-- A row whose column `j` has no target raises there, with the columns before it composed. -/
theorem columns_raised {cx cy k n j : Nat} {s u : State} {b : Byte} {f : Fault} (hk : k < n) (hn : n ≤ 16)
    (hu : Composing cx cy (fun i c => i < k ∧ c < 8) s u) (hread : memRead (effAddr s k) s = .ok b) (hj : j < 8)
    (h : ∀ i < j, ∃ p, target s.cfg (cx + i) (cy + k) = .ok p) (hf : target s.cfg (cx + j) (cy + k) = .error f) :
    ∃ t, Body.forEach (drawColumn cx (cy + k) b) (List.range 8) u = .raised f t ∧
      Composing cx cy (fun i c => (i < k ∧ c < 8) ∨ (i = k ∧ c < j)) s t := by
  obtain ⟨t, ht, hc⟩ := columns_done hk hn hu hread j (by omega) h
  refine ⟨t, ?_, hc⟩
  have hcfg : t.cfg = s.cfg := by rw [hc.1]
  have hw : drawColumn cx (cy + k) b j t = .raised f t := by simp [drawColumn, hcfg, hf]
  obtain ⟨m, hm⟩ := Nat.exists_eq_add_of_lt hj
  rw [show 8 = j + (1 + m) by omega, List.range_add, forEach_append, ht]
  simp [List.range_succ_eq_map, Nat.add_comm 1 m, hw]

/-! ## The rows -/

/-- The rows below `n`, all drawable, are composed. -/
theorem rows_done {cx cy : Nat} {s : State} : ∀ n, n ≤ 16 → (∀ k < n, RowDrawable s cx cy k) →
    ∃ t, Body.forEach (drawRow cx cy) (List.range n) (s.setV VF 0) = .done t ∧
      Composing cx cy (fun i c => i < n ∧ c < 8) s t := by
  intro n
  induction n with
  | zero => exact fun _ _ => ⟨_, rfl, composing_congr (by simp) (composing_none cx cy s)⟩
  | succ n ih =>
    intro hn h
    obtain ⟨t, ht, hc⟩ := ih (by omega) fun k hk => h k (by omega)
    obtain ⟨⟨b, hb⟩, hcols⟩ := h n (by omega)
    obtain ⟨w, hw, hcw⟩ := columns_done (Nat.lt_succ_self n) hn hc hb 8 (by omega) hcols
    refine ⟨w, ?_, composing_congr (fun i c => by omega) hcw⟩
    rw [List.range_succ, forEach_append, ht]
    simp [drawRow, memRead_drawBase hc.1, hb, hw]

/-- A draw whose row `k` raises, in a state reached with the rows before it composed, raises there. -/
theorem rows_raised {cx cy n k : Nat} {s : State} {f : Fault} {cells : Nat → Nat → Prop} (hn : n ≤ 16) (hk : k < n)
    (h : ∀ i < k, RowDrawable s cx cy i)
    (hr : ∀ u, Composing cx cy (fun i c => i < k ∧ c < 8) s u →
      ∃ t, drawRow cx cy k u = .raised f t ∧ Composing cx cy cells s t) :
    ∃ t, Body.forEach (drawRow cx cy) (List.range n) (s.setV VF 0) = .raised f t ∧ Composing cx cy cells s t := by
  obtain ⟨u, hu, hc⟩ := rows_done k (by omega) h
  obtain ⟨t, ht, hct⟩ := hr u hc
  refine ⟨t, ?_, hct⟩
  obtain ⟨m, hm⟩ := Nat.exists_eq_add_of_lt hk
  rw [show n = k + (1 + m) by omega, List.range_add, forEach_append, hu]
  simp [List.range_succ_eq_map, Nat.add_comm 1 m, ht]

/-- What composing leaves alone. -/
theorem composing_frame {cx cy : Nat} {cells : Nat → Nat → Prop} {s t : State} (h : Composing cx cy cells s t) :
    DrawFrame s t ∧ t.fault = s.fault ∧ t.redraw = s.redraw := by
  obtain ⟨hb, hr, -⟩ := h
  refine ⟨⟨hr, ?_⟩, ?_, ?_⟩
  · rw [hb]; simp [BytesKept, StackKept, TimersKept, KeysKept, EnvKept, State.readByte, State.getSlot, State.getKey]
  · rw [hb]
  · rw [hb]

end Sys2Proof.Machine
end

