-- ==== Sys2Proof/Laws/Step.lean ====
section
/-!
SUPPORT. Everything a step can do, said once (spec/40_execution_cycle.md R121-R130), and what the loops of a body keep.
-/

namespace Sys2Proof.Machine

/-- Every body answers a next state. -/
theorem outcome_next (r : Body) : ∃ t, r.outcome = .next t := by
  rcases outcome_cases r with ⟨-, h⟩ | ⟨f, -, h⟩
  · exact ⟨_, h⟩
  · exact ⟨_, h⟩

/-- Every instruction answers a next state: no meaning stops. -/
theorem exec_answers (i : Instr) (s : State) : ∃ t, exec i s = .next t := by
  cases i <;> simp only [exec]
  case ret => unfold execRet; split <;> exact ⟨_, rfl⟩
  case skp => unfold execSkp; split <;> exact ⟨_, rfl⟩
  case sknp => unfold execSknp; split <;> exact ⟨_, rfl⟩
  case call => exact outcome_next _
  case ldB => exact outcome_next _
  case storeRegs => exact outcome_next _
  case loadRegs => exact outcome_next _
  case drw => exact outcome_next _
  all_goals exact ⟨_, rfl⟩

/-- The one way a word decodes to nothing. -/
theorem decodeWord_error {op : Word} {e : DecodeError} (h : decodeWord op = .error e) : e = .unknownOpcode op := by
  unfold decodeWord at h
  split at h
  all_goals first
    | (simp only [reduceCtorEq] at h)
    | (simpa using h.symm)
    | (unfold decodeFamily0 at h; split at h <;> [skip; split at h] <;> simp_all)
    | (unfold decodeFamily8 at h; split at h <;> simp_all)
    | (unfold decodeFamilyE at h; split at h <;> simp_all)
    | (unfold decodeFamilyF at h; split at h <;> simp_all)

theorem step_faulted {s : State} {r : FaultRecord} (h : s.fault = some r) : step s = .fault r.kind := by
  simp [step, h, faultedStep]

theorem step_waiting {s : State} {r : Reg} (hf : s.fault = none) (h : s.run = .waitingForKey r) : step s = .next s := by
  simp [step, hf, h, waitingStep]

theorem step_fetchFault {s : State} (h : s.Ready) {f : Fault} (hf : fetch s = .error f) :
    step s = .next (takeFetchFault f s) := by
  simp [step, h.1, h.2, hf, fetchFaultStep]

theorem step_unknown {s : State} (h : s.Ready) {op : Word} {e : DecodeError} (ho : fetch s = .ok op)
    (hd : decodeWord op = .error e) : step s = .next (takeFault (.unknownOpcode op) (advancePc s)) := by
  simp [step, h.1, h.2, ho, hd, unknownOpcodeStep]

theorem step_fetches {s : State} {i : Instr} (h : s.Fetches i) {u : State} (hu : exec i (advancePc s) = .next u) :
    step s = .next (endStep u) := by
  obtain ⟨hr, op, ho, hd⟩ := h
  simp only [step, hr.1, hr.2, ho, hd, hu, finishStep]

/-- A ready block's step: the fetch raises, or the word is unknown, or an instruction runs. -/
theorem ready_cases {s : State} (h : s.Ready) :
    (∃ f, fetch s = .error f ∧ step s = .next (takeFetchFault f s)) ∨
    (∃ op, fetch s = .ok op ∧ decodeWord op = .error (.unknownOpcode op) ∧
      step s = .next (takeFault (.unknownOpcode op) (advancePc s))) ∨
    (∃ i u, s.Fetches i ∧ exec i (advancePc s) = .next u ∧ step s = .next (endStep u)) := by
  cases ho : fetch s with
  | error f => exact .inl ⟨f, rfl, step_fetchFault h ho⟩
  | ok op =>
    cases hd : decodeWord op with
    | error e =>
      have := decodeWord_error hd
      subst this
      exact .inr (.inl ⟨op, rfl, hd, step_unknown h ho hd⟩)
    | ok i =>
      obtain ⟨u, hu⟩ := exec_answers i (advancePc s)
      have hf : s.Fetches i := ⟨h, op, ho, hd⟩
      exact .inr (.inr ⟨i, u, hf, hu, step_fetches hf hu⟩)

/-- Everything a step that answers a next state can do. -/
theorem step_cases {s t : State} (h : step s = .next t) :
    s.fault = none ∧
    ((∃ r, s.run = .waitingForKey r ∧ t = s) ∨
     (s.run = .running ∧ ∃ f, fetch s = .error f ∧ t = takeFetchFault f s) ∨
     (s.run = .running ∧ ∃ op, fetch s = .ok op ∧ decodeWord op = .error (.unknownOpcode op) ∧
       t = takeFault (.unknownOpcode op) (advancePc s)) ∨
     (∃ i u, s.Fetches i ∧ exec i (advancePc s) = .next u ∧ t = endStep u)) := by
  cases hf : s.fault with
  | some r => rw [step_faulted hf] at h; cases h
  | none =>
    refine ⟨rfl, ?_⟩
    cases hr : s.run with
    | waitingForKey r => rw [step_waiting hf hr] at h; cases h; exact .inl ⟨r, rfl, rfl⟩
    | running =>
      rcases ready_cases ⟨hf, hr⟩ with ⟨f, ho, hs⟩ | ⟨op, ho, hd, hs⟩ | ⟨i, u, hi, hu, hs⟩
      · rw [hs] at h; cases h; exact .inr (.inl ⟨rfl, f, ho, rfl⟩)
      · rw [hs] at h; cases h; exact .inr (.inr (.inl ⟨rfl, op, ho, hd, rfl⟩))
      · rw [hs] at h; cases h; exact .inr (.inr (.inr ⟨i, u, hi, hu, rfl⟩))

/-- Which outcome a step of a block has. -/
theorem step_answers {s : State} (h : s.fault = none) : ∃ t, step s = .next t := by
  cases hr : s.run with
  | waitingForKey r => exact ⟨s, step_waiting h hr⟩
  | running =>
    rcases ready_cases ⟨h, hr⟩ with ⟨_, -, hs⟩ | ⟨_, -, -, hs⟩ | ⟨_, _, -, -, hs⟩
    · exact ⟨_, hs⟩
    · exact ⟨_, hs⟩
    · exact ⟨_, hs⟩

theorem endStep_none {u : State} (h : u.fault = none) : endStep u = tick u := by simp [endStep, h]

theorem endStep_some {u : State} {r : FaultRecord} (h : u.fault = some r) : endStep u = u := by simp [endStep, h]

/-- A ready block at which `i` is fetched is one whose two bytes at `pc` are a word of `i`. -/
theorem fetch_eq {s : State} {a b : Nat} (ha : resolve s.cfg s.pc.toNat = .ok a)
    (hb : resolve s.cfg (s.pc.toNat + 1) = .ok b) : fetch s = .ok (wordOfBytes (s.readByte a) (s.readByte b)) := by
  simp [fetch, memReadWord, memRead, ha, hb]

/-! ## What the loops of a body keep -/

/-- Nothing but the memory changes, and the memory stays in canonical form. -/
def StoresOnly (s t : State) : Prop :=
  t = { s with mem := t.mem } ∧ (s.cfg.wf = true → Memory.wf s.cfg s.mem → Memory.wf s.cfg t.mem)

theorem storeCell_keeps (d : Nat × Byte) (s : State) : StoresOnly s (storeCell d s).state := by
  unfold storeCell
  cases h : memWrite (effAddr s d.1) d.2 s with
  | raised f t => obtain ⟨-, rfl⟩ := memWrite_eq_raised.1 h; exact ⟨rfl, fun _ h => h⟩
  | done t =>
    obtain ⟨a, ha, rfl⟩ := memWrite_eq_done.1 h
    exact ⟨rfl, fun hc hm => wf_put hm (resolve_lt hc ha) _⟩

theorem stores_keep (l : List (Nat × Byte)) (s : State) : StoresOnly s (Body.forEach storeCell l s).state :=
  forEach_keeps (P := StoresOnly) (fun _ => ⟨rfl, fun _ h => h⟩)
    (fun s t u ⟨h, hw⟩ ⟨g, gw⟩ => ⟨by rw [g, h], fun hc hm => by rw [h] at gw; exact gw hc (hw hc hm)⟩)
    storeCell_keeps l s

/-- Nothing but the registers below `n` changes. -/
def LoadsBelow (n : Nat) (s t : State) : Prop := RegsOnly s t ∧ ∀ r : Reg, n ≤ r.val → t.getV r = s.getV r

theorem loads_keep (x : Reg) (s : State) : LoadsBelow (x.val + 1) s (Body.forEach loadReg (regsUpTo x) s).state := by
  have key : ∀ l : List Reg, (∀ r ∈ l, r.val < x.val + 1) → ∀ s, LoadsBelow (x.val + 1) s (Body.forEach loadReg l s).state := by
    intro l
    induction l with
    | nil => exact fun _ s => ⟨rfl, fun _ _ => rfl⟩
    | cons q l ih =>
      intro hl s
      simp only [forEach_cons, loadReg]
      cases memRead (effAddr s q.val) s with
      | error f => exact ⟨rfl, fun _ _ => rfl⟩
      | ok b =>
        obtain ⟨h, g⟩ := ih (fun r hr => hl r (by simp [hr])) (s.setV q b)
        refine ⟨by rw [andThen_done, h]; rfl, fun r hr => ?_⟩
        rw [andThen_done, g r hr, setV_getV, if_neg]
        rintro rfl; have := hl _ List.mem_cons_self; omega
  refine key _ (fun r hr => ?_) s
  obtain ⟨k, hk, rfl⟩ := List.mem_iff_getElem.1 hr
  simp only [regsUpTo, List.length_take, List.length_finRange] at hk
  simp [regsUpTo]; omega

/-- Nothing but VF and the grid changes. -/
def DrawsOnly (s t : State) : Prop := DrawBase s t ∧ RegsKept [VF] s t

theorem drawsOnly_refl (s : State) : DrawsOnly s s := ⟨rfl, fun _ _ => rfl⟩

theorem drawsOnly_trans (s t u : State) (h : DrawsOnly s t) (g : DrawsOnly t u) : DrawsOnly s u :=
  ⟨by rw [DrawBase, g.1, h.1], fun r hr => (g.2 r hr).trans (h.2 r hr)⟩

theorem drawColumn_keeps (cx py : Nat) (b : Byte) (j : Nat) (s : State) : DrawsOnly s (drawColumn cx py b j s).state := by
  unfold drawColumn
  split
  · exact drawsOnly_refl s
  · exact drawsOnly_refl s
  · rw [xorPixel_eq]
    refine ⟨by simp only [state_done]; split <;> rfl, fun r hr => ?_⟩
    have : r ≠ VF := by simpa using hr
    simp only [state_done]
    split <;> simp [this]

theorem draw_keeps (cx cy : Nat) (l : List Nat) (s : State) : DrawsOnly s (Body.forEach (drawRow cx cy) l s).state := by
  refine forEach_keeps drawsOnly_refl drawsOnly_trans (fun k s => ?_) l s
  unfold drawRow
  split
  · exact drawsOnly_refl s
  · exact forEach_keeps drawsOnly_refl drawsOnly_trans (drawColumn_keeps cx (cy + k) _) _ s

end Sys2Proof.Machine
end

