-- ==== Sys2Proof/Laws/Exec.lean ====
section
/-!
SUPPORT. Everything an instruction can do about faults and memory, said once for all of them (spec/60_exceptions.md R261-R263).
-/

namespace Sys2Proof.Machine

/-- What a body has changed when it raises: registers loaded, bytes stored, pixels drawn, and nothing else (R263). -/
def PartlyDone (s t : State) : Prop := t = { s with v := t.v, mem := t.mem, fb := t.fb }

theorem storesOnly_partly {s t : State} (h : StoresOnly s t) : PartlyDone s t := by rw [PartlyDone, h.1]

theorem regsOnly_partly {s t : State} (h : RegsOnly s t) : PartlyDone s t := by rw [PartlyDone, h]

theorem drawsOnly_partly {s t : State} (h : DrawsOnly s t) : PartlyDone s t := by rw [PartlyDone, h.1]

/-- A body that changes only registers, bytes and pixels completes with no fault taken, or takes one. -/
theorem outcome_partly {r : Body} {s t : State} (hk : PartlyDone s r.state) (h : r.outcome = .next t) :
    t.fault = s.fault ∨ ∃ f u, t = takeFault f u ∧ PartlyDone s u := by
  rcases outcome_cases r with ⟨-, ho⟩ | ⟨f, -, ho⟩
  · rw [ho] at h; cases h; left; rw [hk]
  · rw [ho] at h; cases h; exact .inr ⟨f, _, rfl, hk⟩

/-- An instruction completes and leaves the recorded fault as it was, or takes a fault in a state that its body has partly
changed. -/
theorem exec_cases {i : Instr} {s t : State} (h : exec i s = .next t) :
    t.fault = s.fault ∨ ∃ f u, t = takeFault f u ∧ PartlyDone s u := by
  have raise : ∀ f, ∃ g u, takeFault f s = takeFault g u ∧ PartlyDone s u := fun f => ⟨f, s, rfl, rfl⟩
  cases i <;> simp only [exec] at h
  case ret =>
    unfold execRet at h
    split at h
    · next w u hp =>
      unfold pop at hp
      split at hp
      · cases hp; cases h; exact .inl rfl
      · cases hp
    · cases h; exact .inr (raise _)
  case call =>
    unfold execCall push at h
    split at h
    · cases h; exact .inl rfl
    · cases h; exact .inr (raise _)
  case skp x =>
    unfold execSkp at h
    split at h
    · cases h; left; rw [skipIf_eq]; rfl
    · cases h; exact .inr (raise _)
  case sknp x =>
    unfold execSknp at h
    split at h
    · cases h; left; rw [skipIf_eq]; rfl
    · cases h; exact .inr (raise _)
  case ldB x => exact outcome_partly (storesOnly_partly (stores_keep _ s)) h
  case storeRegs x =>
    rw [execStoreRegs, forEach_storeReg] at h
    exact outcome_partly (storesOnly_partly (stores_keep _ s)) h
  case loadRegs x => exact outcome_partly (regsOnly_partly (loads_keep x s).1) h
  case drw x y n =>
    have hk := drawsOnly_partly (draw_keeps (s.getV x).toNat (s.getV y).toNat (List.range n) (s.setV VF 0))
    unfold execDrw at h
    cases hb : Body.forEach (drawRow (s.getV x).toNat (s.getV y).toNat) (List.range n) (s.setV VF 0) with
    | done u => rw [hb] at h hk; cases h; left; rw [setRedraw_fault]; rw [state_done] at hk; rw [hk]; rfl
    | raised f u => rw [hb] at h hk; cases h; exact .inr ⟨f, u, rfl, by rw [state_raised] at hk; rw [PartlyDone, hk]; rfl⟩
  all_goals first
    | (cases h; exact .inl rfl)
    | (cases h; left; simp [skipIf_eq])

/-- An instruction keeps the memory in canonical form. -/
theorem exec_keeps_memory {i : Instr} {s t : State} (h : exec i s = .next t) (hc : s.cfg.wf = true)
    (hm : Memory.wf s.cfg s.mem) : t.cfg = s.cfg ∧ Memory.wf s.cfg t.mem := by
  have body : ∀ {r : Body}, r.outcome = .next t → r.state.cfg = s.cfg ∧ Memory.wf s.cfg r.state.mem →
      t.cfg = s.cfg ∧ Memory.wf s.cfg t.mem := by
    intro r hr hk
    rcases outcome_cases r with ⟨-, ho⟩ | ⟨f, -, ho⟩
    · rw [ho] at hr; cases hr; exact hk
    · rw [ho] at hr; cases hr; exact hk
  have stores : ∀ l, (Body.forEach storeCell l s).state.cfg = s.cfg ∧
      Memory.wf s.cfg (Body.forEach storeCell l s).state.mem := fun l => by
    obtain ⟨h, w⟩ := stores_keep l s
    exact ⟨by rw [h], w hc hm⟩
  cases i <;> simp only [exec] at h
  case ret =>
    unfold execRet at h
    split at h
    · next w u hp =>
      unfold pop at hp
      split at hp
      · cases hp; cases h; exact ⟨rfl, hm⟩
      · cases hp
    · cases h; exact ⟨rfl, hm⟩
  case call =>
    unfold execCall push at h
    split at h <;> (cases h; exact ⟨rfl, hm⟩)
  case skp x => unfold execSkp at h; split at h <;> (cases h; simpa [skipIf_eq] using hm)
  case sknp x => unfold execSknp at h; split at h <;> (cases h; simpa [skipIf_eq] using hm)
  case ldB x => exact body h (stores _)
  case storeRegs x =>
    rw [execStoreRegs, forEach_storeReg] at h
    exact body h (stores _)
  case loadRegs x =>
    have hk := (loads_keep x s).1
    exact body h ⟨by rw [hk], by rw [hk]; exact hm⟩
  case drw x y n =>
    have hk := (draw_keeps (s.getV x).toNat (s.getV y).toNat (List.range n) (s.setV VF 0)).1
    unfold execDrw at h
    cases hb : Body.forEach (drawRow (s.getV x).toNat (s.getV y).toNat) (List.range n) (s.setV VF 0) with
    | done u => rw [hb] at h hk; cases h; rw [state_done] at hk; rw [hk]; exact ⟨rfl, hm⟩
    | raised f u => rw [hb] at h hk; cases h; rw [state_raised] at hk; rw [hk]; exact ⟨rfl, hm⟩
  all_goals first
    | (cases h; exact ⟨rfl, hm⟩)
    | (simp only [execSeImm, execSneImm, execSeReg, execSneReg, skipIf_eq] at h; cases h; exact ⟨rfl, hm⟩)
    | (simp only [execAddReg, execSubReg, execSubn, execShr, execShl] at h; cases h; simpa using hm)

end Sys2Proof.Machine
end

