-- ==== Sys2Proof/Laws/Host.lean ====
section
/-!
SUPPORT. What a launch and a host operation can do to a block, said once (spec/40_execution_cycle.md R120, R131, R133,
spec/70_reset_and_hazards.md R293, R294).
-/

namespace Sys2Proof.Machine

/-! ## Loading an image (R293) -/

/-- An image stored from `p` on changes the memory only, and of it the image's bytes. -/
theorem storeCells_from (bytes : List Byte) : ∀ (p : Nat) (s : State),
    let t := (bytes.zipIdx p).foldl (fun t c => t.putByte c.2 c.1) s
    OnlyMemory s t ∧ (∀ (k : Nat) (h : k < bytes.length), t.readByte (p + k) = bytes[k]) ∧
      BytesKeptOutside p bytes.length s t := by
  induction bytes with
  | nil => exact fun p s => ⟨onlyMemory_refl s, by simp, fun _ _ => rfl⟩
  | cons b l ih =>
    intro p s
    obtain ⟨hm, hin, hout⟩ := ih (p + 1) (s.putByte p b)
    simp only [List.zipIdx_cons, List.foldl_cons]
    refine ⟨onlyMemory_trans (onlyMemory_putByte ..) hm, fun k hk => ?_, fun a ha => ?_⟩
    · cases k with
      | zero => rw [hout _ (by omega)]; simp
      | succ k => rw [List.getElem_cons_succ, ← hin k (by simpa using hk)]; congr 1; omega
    · simp only [List.length_cons] at ha
      rw [hout _ (by omega), putByte_readByte, if_neg (by omega)]

/-- Cells stored inside the memory keep it in canonical form, and change nothing else. -/
theorem storeCells_wf (l : List (Byte × Nat)) : ∀ s : State, (∀ p ∈ l, p.2 < s.cfg.memSize) → Memory.wf s.cfg s.mem →
    let t := l.foldl (fun t p => t.putByte p.2 p.1) s
    t = { s with mem := t.mem } ∧ Memory.wf s.cfg t.mem := by
  induction l with
  | nil => exact fun s _ h => ⟨rfl, h⟩
  | cons p l ih =>
    intro s hl hs
    obtain ⟨he, hw⟩ := ih (s.putByte p.2 p.1) (fun q hq => hl q (by simp [hq])) (wf_put hs (hl p (by simp)) _)
    exact ⟨by simpa using he, hw⟩

/-- Everything `loadProgram` can answer. -/
theorem loadProgram_cases (bytes : List Byte) (s : State) :
    (bytes.length ≤ s.cfg.memSize - s.cfg.progStart.toNat ∧ loadProgram bytes s = .next (storeImage bytes s)) ∨
    (s.cfg.memSize - s.cfg.progStart.toNat < bytes.length ∧ loadProgram bytes s = .refused (.imageTooLarge bytes.length)) := by
  unfold loadProgram
  by_cases h : bytes.length ≤ s.cfg.memSize - s.cfg.progStart.toNat
  · exact .inl ⟨h, if_pos h⟩
  · exact .inr ⟨Nat.lt_of_not_le h, if_neg h⟩

/-- A load that completes keeps the memory in canonical form, and changes nothing else. -/
theorem loadProgram_keeps {bytes : List Byte} {s t : State} (h : loadProgram bytes s = .next t)
    (hm : Memory.wf s.cfg s.mem) : t = { s with mem := t.mem } ∧ Memory.wf s.cfg t.mem := by
  rcases loadProgram_cases bytes s with ⟨hl, hn⟩ | ⟨-, hn⟩
  · rw [hn] at h; cases h
    refine storeCells_wf (imageCells s.cfg bytes) s (fun p hp => ?_) hm
    obtain ⟨b, a⟩ := p
    have := List.mem_zipIdx hp
    simp only; omega
  · rw [hn] at h; cases h

/-! ## Sessions (R294) -/

/-- A launch that completes is a loaded session of what construction and `loadProgram` leave. -/
theorem launch_next {c : Config} {bytes : List Byte} {u : Session} (h : Session.launch c bytes = .next u) :
    u.phase = .loaded ∧ loadProgram bytes (State.construct c) = .next u.block := by
  unfold Session.launch at h
  split at h
  · next t ht => cases h; exact ⟨rfl, ht⟩
  · cases h
  · cases h

/-- Everything a host operation can do to the block. -/
theorem hostOp_block (o : HostOp) (u : Session) : (hostOp o u).1.block = u.block ∨
    (o = .step ∧ (hostOp o u).1.block = blockAfterStep u.block) ∨
    (∃ k : Fin 16, o = .pressKey k.val ∧ (hostOp o u).1.block = pressKey k u.block) ∨
    (∃ k : Fin 16, o = .releaseKey k.val ∧ (hostOp o u).1.block = releaseKey k u.block) ∨
    (o = .clearRedraw ∧ (hostOp o u).1.block = clearRedraw u.block) := by
  cases o with
  | loadProgram bytes => left; simp only [hostOp, loadOp]; split <;> rfl
  | step => exact .inr (.inl ⟨rfl, rfl⟩)
  | pressKey k =>
    by_cases h : k < 16
    · exact .inr (.inr (.inl ⟨⟨k, h⟩, rfl, by simp [hostOp, keyOp, h]⟩))
    · left; simp [hostOp, keyOp, h]
  | releaseKey k =>
    by_cases h : k < 16
    · exact .inr (.inr (.inr (.inl ⟨⟨k, h⟩, rfl, by simp [hostOp, keyOp, h]⟩)))
    · left; simp [hostOp, keyOp, h]
  | readRedraw => exact .inl rfl
  | clearRedraw => exact .inr (.inr (.inr (.inr ⟨rfl, rfl⟩)))
  | readPixel px py => exact .inl rfl

/-- A press, as the fields it writes: the latch, and at the end of a wait the pending register and `run`. -/
theorem pressKey_cases (k : Fin 16) (s : State) :
    (s.run = .running ∧ pressKey k s = s.setKey k true) ∨
    (∃ r, s.run = .waitingForKey r ∧
      pressKey k s = ((s.setKey k true).setV r (BitVec.ofNat 8 k.val)).setRun .running) := by
  cases h : s.run with
  | running => exact .inl ⟨rfl, by simp [pressKey, endWait, h]⟩
  | waitingForKey r => exact .inr ⟨r, rfl, by simp [pressKey, endWait, h]⟩

end Sys2Proof.Machine
end

