-- ==== Sys2Proof/Laws/PerInstr.lean ====
section
/-!
SUPPORT. Family EncodeRow: the word of every instruction selects its own row of R95, and that row is in the opcode map.
-/

namespace Sys2Proof.Laws.EncodeRow

/-- The encoding of an instruction lies in its row of the opcode map (R95). -/
def Statement (i : Instr) : Prop := (rowOf i).selects (encode i) = true ∧ rowOf i ∈ opcodeMap

theorem cls : Statement .cls :=
  ⟨by decide, by decide⟩

theorem ret : Statement .ret :=
  ⟨by decide, by decide⟩

theorem jp (nnn : BitVec 12) : Statement (.jp nnn) :=
  ⟨(selects_F000 _ _ _ (by decide)).2 (by simp [encode, formatA_toNat]; omega), (by decide : rowOf (.jp 0) ∈ opcodeMap)⟩

theorem call (nnn : BitVec 12) : Statement (.call nnn) :=
  ⟨(selects_F000 _ _ _ (by decide)).2 (by simp [encode, formatA_toNat]; omega), (by decide : rowOf (.call 0) ∈ opcodeMap)⟩

theorem seImm (x : Reg) (kk : Byte) : Statement (.seImm x kk) :=
  ⟨(selects_F000 _ _ _ (by decide)).2 (by simp [encode, formatXK_toNat]; omega), (by decide : rowOf (.seImm 0 0) ∈ opcodeMap)⟩

theorem sneImm (x : Reg) (kk : Byte) : Statement (.sneImm x kk) :=
  ⟨(selects_F000 _ _ _ (by decide)).2 (by simp [encode, formatXK_toNat]; omega), (by decide : rowOf (.sneImm 0 0) ∈ opcodeMap)⟩

theorem seReg (x y : Reg) : Statement (.seReg x y) :=
  ⟨(selects_F000 _ _ _ (by decide)).2 (by simp [encode, formatXY_toNat]; omega), (by decide : rowOf (.seReg 0 0) ∈ opcodeMap)⟩

theorem ldImm (x : Reg) (kk : Byte) : Statement (.ldImm x kk) :=
  ⟨(selects_F000 _ _ _ (by decide)).2 (by simp [encode, formatXK_toNat]; omega), (by decide : rowOf (.ldImm 0 0) ∈ opcodeMap)⟩

theorem addImm (x : Reg) (kk : Byte) : Statement (.addImm x kk) :=
  ⟨(selects_F000 _ _ _ (by decide)).2 (by simp [encode, formatXK_toNat]; omega), (by decide : rowOf (.addImm 0 0) ∈ opcodeMap)⟩

theorem ldReg (x y : Reg) : Statement (.ldReg x y) :=
  ⟨(selects_F00F _ _ _ (by decide)).2 (by simp [encode, formatXY_toNat]; omega), (by decide : rowOf (.ldReg 0 0) ∈ opcodeMap)⟩

theorem orReg (x y : Reg) : Statement (.orReg x y) :=
  ⟨(selects_F00F _ _ _ (by decide)).2 (by simp [encode, formatXY_toNat]; omega), (by decide : rowOf (.orReg 0 0) ∈ opcodeMap)⟩

theorem andReg (x y : Reg) : Statement (.andReg x y) :=
  ⟨(selects_F00F _ _ _ (by decide)).2 (by simp [encode, formatXY_toNat]; omega), (by decide : rowOf (.andReg 0 0) ∈ opcodeMap)⟩

theorem xorReg (x y : Reg) : Statement (.xorReg x y) :=
  ⟨(selects_F00F _ _ _ (by decide)).2 (by simp [encode, formatXY_toNat]; omega), (by decide : rowOf (.xorReg 0 0) ∈ opcodeMap)⟩

theorem addReg (x y : Reg) : Statement (.addReg x y) :=
  ⟨(selects_F00F _ _ _ (by decide)).2 (by simp [encode, formatXY_toNat]; omega), (by decide : rowOf (.addReg 0 0) ∈ opcodeMap)⟩

theorem subReg (x y : Reg) : Statement (.subReg x y) :=
  ⟨(selects_F00F _ _ _ (by decide)).2 (by simp [encode, formatXY_toNat]; omega), (by decide : rowOf (.subReg 0 0) ∈ opcodeMap)⟩

theorem shr (x : Reg) : Statement (.shr x) :=
  ⟨(selects_F00F _ _ _ (by decide)).2 (by simp [encode, formatXY_toNat]; omega), (by decide : rowOf (.shr 0) ∈ opcodeMap)⟩

theorem subn (x y : Reg) : Statement (.subn x y) :=
  ⟨(selects_F00F _ _ _ (by decide)).2 (by simp [encode, formatXY_toNat]; omega), (by decide : rowOf (.subn 0 0) ∈ opcodeMap)⟩

theorem shl (x : Reg) : Statement (.shl x) :=
  ⟨(selects_F00F _ _ _ (by decide)).2 (by simp [encode, formatXY_toNat]; omega), (by decide : rowOf (.shl 0) ∈ opcodeMap)⟩

theorem sneReg (x y : Reg) : Statement (.sneReg x y) :=
  ⟨(selects_F000 _ _ _ (by decide)).2 (by simp [encode, formatXY_toNat]; omega), (by decide : rowOf (.sneReg 0 0) ∈ opcodeMap)⟩

theorem ldI (nnn : BitVec 12) : Statement (.ldI nnn) :=
  ⟨(selects_F000 _ _ _ (by decide)).2 (by simp [encode, formatA_toNat]; omega), (by decide : rowOf (.ldI 0) ∈ opcodeMap)⟩

theorem jpV0 (nnn : BitVec 12) : Statement (.jpV0 nnn) :=
  ⟨(selects_F000 _ _ _ (by decide)).2 (by simp [encode, formatA_toNat]; omega), (by decide : rowOf (.jpV0 0) ∈ opcodeMap)⟩

theorem rnd (x : Reg) (kk : Byte) : Statement (.rnd x kk) :=
  ⟨(selects_F000 _ _ _ (by decide)).2 (by simp [encode, formatXK_toNat]; omega), (by decide : rowOf (.rnd 0 0) ∈ opcodeMap)⟩

theorem drw (x y : Reg) (n : Nat) : Statement (.drw x y n) :=
  ⟨(selects_F000 _ _ _ (by decide)).2 (by simp [encode, formatXY_toNat]; omega), (by decide : rowOf (.drw 0 0 0) ∈ opcodeMap)⟩

theorem skp (x : Reg) : Statement (.skp x) :=
  ⟨(selects_F0FF _ _ _ (by decide)).2 (by simp [encode, formatXK_toNat]; omega), (by decide : rowOf (.skp 0) ∈ opcodeMap)⟩

theorem sknp (x : Reg) : Statement (.sknp x) :=
  ⟨(selects_F0FF _ _ _ (by decide)).2 (by simp [encode, formatXK_toNat]; omega), (by decide : rowOf (.sknp 0) ∈ opcodeMap)⟩

theorem ldVxDT (x : Reg) : Statement (.ldVxDT x) :=
  ⟨(selects_F0FF _ _ _ (by decide)).2 (by simp [encode, formatXK_toNat]; omega), (by decide : rowOf (.ldVxDT 0) ∈ opcodeMap)⟩

theorem ldVxK (x : Reg) : Statement (.ldVxK x) :=
  ⟨(selects_F0FF _ _ _ (by decide)).2 (by simp [encode, formatXK_toNat]; omega), (by decide : rowOf (.ldVxK 0) ∈ opcodeMap)⟩

theorem ldDT (x : Reg) : Statement (.ldDT x) :=
  ⟨(selects_F0FF _ _ _ (by decide)).2 (by simp [encode, formatXK_toNat]; omega), (by decide : rowOf (.ldDT 0) ∈ opcodeMap)⟩

theorem ldST (x : Reg) : Statement (.ldST x) :=
  ⟨(selects_F0FF _ _ _ (by decide)).2 (by simp [encode, formatXK_toNat]; omega), (by decide : rowOf (.ldST 0) ∈ opcodeMap)⟩

theorem addI (x : Reg) : Statement (.addI x) :=
  ⟨(selects_F0FF _ _ _ (by decide)).2 (by simp [encode, formatXK_toNat]; omega), (by decide : rowOf (.addI 0) ∈ opcodeMap)⟩

theorem ldF (x : Reg) : Statement (.ldF x) :=
  ⟨(selects_F0FF _ _ _ (by decide)).2 (by simp [encode, formatXK_toNat]; omega), (by decide : rowOf (.ldF 0) ∈ opcodeMap)⟩

theorem ldB (x : Reg) : Statement (.ldB x) :=
  ⟨(selects_F0FF _ _ _ (by decide)).2 (by simp [encode, formatXK_toNat]; omega), (by decide : rowOf (.ldB 0) ∈ opcodeMap)⟩

theorem storeRegs (x : Reg) : Statement (.storeRegs x) :=
  ⟨(selects_F0FF _ _ _ (by decide)).2 (by simp [encode, formatXK_toNat]; omega), (by decide : rowOf (.storeRegs 0) ∈ opcodeMap)⟩

theorem loadRegs (x : Reg) : Statement (.loadRegs x) :=
  ⟨(selects_F0FF _ _ _ (by decide)).2 (by simp [encode, formatXK_toNat]; omega), (by decide : rowOf (.loadRegs 0) ∈ opcodeMap)⟩

end Sys2Proof.Laws.EncodeRow
end

