-- ==== Sys2Proof/Tests/Slice0.lean ====
section
/-!
SUPPORT. Tests. Expected values come from the spec: the source's examples S1-S12 and the vectors C, A, M, D, K, E of
spec/95_test_vectors.md, and words written out from the patterns of spec/30_encoding.md R95. Each `test_` is one step or one
decoding. Each `witness_` meets the hypotheses of the obligation it names, at the boundaries of its clauses.
-/

namespace Sys2Proof.Tests

open Sys2Proof.Machine

/-! ## Small states -/

/-- The construction state with these bytes, registers and index. -/
def block (cells : List (Nat × Byte)) (v : List (Reg × Byte)) (i : Word) : State :=
  (v.foldl (fun s p => s.setV p.1 p.2) (cells.foldl (fun s c => s.putByte c.1 c.2) State.reset)).setI i

/-- A state after one step that runs this word. -/
def ran (w : Nat) (s : State) : State := blockAfterStep (s.withFetchWord 16 w)

/-- The construction state under another configuration. -/
def under (c : Config) (v : List (Reg × Byte)) (i : Word) : State :=
  (v.foldl (fun s p => s.setV p.1 p.2) (State.construct c)).setI i

abbrev wrapMemory : Config := { Config.default with memOob := .wrap }
abbrev clipping : Config := { Config.default with offscreen := .clip }
abbrev wrapping : Config := { Config.default with offscreen := .wrap }
abbrev litAndBit : Config := { Config.default with collision := .litAndSpriteBit }
abbrev flagLast : Config := { Config.default with vfDestOrder := .resultThenFlag }

/-- The lit pixels of a state, column first. -/
def lit (s : State) : List (Nat × Nat) :=
  s.fb.toList.zipIdx.flatMap fun c => c.1.toList.zipIdx.filterMap fun p => if p.1 then some (c.2, p.2) else none

/-! ## WellFormed: the one check, with an ill-formed term it refuses -/

theorem test_wf_refuses_a_row_count_of_16 : (Instr.drw 0 0 16).wf = false ∧ (Instr.drw 0 0 15).wf = true := by decide

/-! ## Decoding (R95), every constructor -/

theorem test_decode_families_0_to_2 :
    decodeWord 0x00E0 = .ok .cls ∧ decodeWord 0x00EE = .ok .ret ∧ decodeWord 0x1FFF = .ok (.jp 0xFFF) ∧
    decodeWord 0x2ABC = .ok (.call 0xABC) := by decide

theorem test_decode_families_3_to_7 :
    decodeWord 0x3A12 = .ok (.seImm 0xA 0x12) ∧ decodeWord 0x4A12 = .ok (.sneImm 0xA 0x12) ∧
    decodeWord 0x5AB3 = .ok (.seReg 0xA 0xB) ∧ decodeWord 0x6101 = .ok (.ldImm 1 0x01) ∧
    decodeWord 0x7F01 = .ok (.addImm 0xF 0x01) := by decide

theorem test_decode_family_8 :
    decodeWord 0x8120 = .ok (.ldReg 1 2) ∧ decodeWord 0x8121 = .ok (.orReg 1 2) ∧ decodeWord 0x8122 = .ok (.andReg 1 2) ∧
    decodeWord 0x8123 = .ok (.xorReg 1 2) ∧ decodeWord 0x8124 = .ok (.addReg 1 2) ∧ decodeWord 0x8125 = .ok (.subReg 1 2) ∧
    decodeWord 0x8126 = .ok (.shr 1) ∧ decodeWord 0x8127 = .ok (.subn 1 2) ∧ decodeWord 0x812E = .ok (.shl 1) := by decide

theorem test_decode_families_9_to_D :
    decodeWord 0x9AB7 = .ok (.sneReg 0xA 0xB) ∧ decodeWord 0xA123 = .ok (.ldI 0x123) ∧ decodeWord 0xB300 = .ok (.jpV0 0x300) ∧
    decodeWord 0xC00F = .ok (.rnd 0 0x0F) ∧ decodeWord 0xD125 = .ok (.drw 1 2 5) := by decide

theorem test_decode_families_E_F :
    decodeWord 0xE39E = .ok (.skp 3) ∧ decodeWord 0xE3A1 = .ok (.sknp 3) ∧ decodeWord 0xF207 = .ok (.ldVxDT 2) ∧
    decodeWord 0xF20A = .ok (.ldVxK 2) ∧ decodeWord 0xF215 = .ok (.ldDT 2) ∧ decodeWord 0xF218 = .ok (.ldST 2) ∧
    decodeWord 0xF21E = .ok (.addI 2) ∧ decodeWord 0xF329 = .ok (.ldF 3) ∧ decodeWord 0xF533 = .ok (.ldB 5) ∧
    decodeWord 0xF255 = .ok (.storeRegs 2) ∧ decodeWord 0xFF65 = .ok (.loadRegs 0xF) := by decide

/-- The illegal words of spec/95_test_vectors.md 2.6. -/
theorem test_illegal_words :
    [0x0000, 0x00E1, 0x01E0, 0x0123, 0x8008, 0x800F, 0xE000, 0xE09F, 0xF000, 0xF0FF, 0xF019].map (decodeTableWord 16) =
      List.replicate 11 none := by decide

/-- Words written from R91 and R95, with every field at a value of its own. -/
theorem test_encode : encode (.drw 1 2 5) = 0xD125 ∧ encode (.subn 0xE 0xD) = 0x8ED7 ∧ encode (.sneImm 0xA 0x5C) = 0x4A5C ∧
    encode (.jpV0 0x9AB) = 0xB9AB ∧ encode (.shl 0xC) = 0x8C0E ∧ encode (.loadRegs 0xF) = 0xFF65 := by decide

theorem test_decodeTableWord : decodeTableWord 16 0x7101 = some (.addImm 1 1) ∧ decodeTableWord 16 0x00E1 = none := by decide

/-- R90: two bytes, high byte first; one byte is no instruction. -/
theorem test_decode_bytes : decode [0x61, 0x02, 0x99] = .ok (.ldImm 1 2, [0x99]) ∧ decode [0x61] = .error .truncated := by decide

/-! ## Control flow -/

theorem test_ret_C1 : let t := ran 0x00EE (State.reset.setStack 0 0x204 1)
    t.pc = 0x204 ∧ t.sp = 0 := by decide
theorem test_ret_C2 : let t := ran 0x00EE State.reset
    t.pc = 0x202 ∧ t.fault = some ⟨.stackUnderflow, 0x200⟩ := by decide
theorem test_jp_C3 : (ran 0x1FFF State.reset).pc = 0x0FFF := by decide
theorem test_call_C5 : let t := ran 0x2300 State.reset
    t.pc = 0x300 ∧ t.sp = 1 ∧ t.getSlot 0 = 0x202 := by decide
theorem test_call_C6 : let t := ran 0x2300 (State.reset.setSp 16)
    t.pc = 0x202 ∧ t.sp = 16 ∧ t.fault = some ⟨.stackOverflow 0x202, 0x200⟩ := by decide
theorem test_seImm_C7_C8 : (ran 0x3A12 (block [] [(0xA, 0x12)] 0)).pc = 0x204 ∧
    (ran 0x3A12 (block [] [(0xA, 0x13)] 0)).pc = 0x202 := by decide
theorem test_sneImm_C9_C10 : (ran 0x4A12 (block [] [(0xA, 0x12)] 0)).pc = 0x202 ∧
    (ran 0x4A12 (block [] [(0xA, 0x13)] 0)).pc = 0x204 := by decide
theorem test_seReg_C12_C13 : (ran 0x5AB0 (block [] [(0xA, 7), (0xB, 8)] 0)).pc = 0x202 ∧
    (ran 0x5AB3 (block [] [(0xA, 7), (0xB, 7)] 0)).pc = 0x204 := by decide
theorem test_sneReg_C14_C15 : (ran 0x9AB0 (block [] [(0xA, 7), (0xB, 7)] 0)).pc = 0x202 ∧
    (ran 0x9AB0 (block [] [(0xA, 7), (0xB, 8)] 0)).pc = 0x204 := by decide
theorem test_jpV0_C16_C17 : (ran 0xB300 (block [] [(0, 0x10)] 0)).pc = 0x310 ∧
    (ran 0xBFFF (block [] [(0, 0xFF)] 0)).pc = 0x10FE := by decide
theorem test_skip_C18 : (ran 0x3000 (State.reset.setPc 0xFFC)).pc = 0x1000 := by decide

/-! ## Registers and ALU -/

theorem test_ldImm_A1 : let t := ran 0x6A42 State.reset
    t.pc = 0x202 ∧ t.getV 0xA = 0x42 := by decide
theorem test_addImm_A2 : let t := ran 0x7AFF (block [] [(0xA, 0x01)] 0)
    t.getV 0xA = 0 ∧ t.getV VF = 0 := by decide
theorem test_addImm_A3 : (ran 0x7F01 (block [] [(0xF, 0xFF)] 0)).getV VF = 0 := by decide
theorem test_ldReg_A4 : (ran 0x8120 (block [] [(2, 0x55)] 0)).getV 1 = 0x55 := by decide
theorem test_orReg_A5 : let t := ran 0x8121 (block [] [(1, 0x0F), (2, 0xF0), (0xF, 1)] 0)
    t.getV 1 = 0xFF ∧ t.getV VF = 1 := by decide
theorem test_andReg_A6 : (ran 0x8122 (block [] [(1, 0x3C), (2, 0x0F)] 0)).getV 1 = 0x0C := by decide
theorem test_xorReg_A7 : (ran 0x8123 (block [] [(1, 0xFF), (2, 0x0F)] 0)).getV 1 = 0xF0 := by decide
theorem test_addReg_A8_A9 :
    (let t := ran 0x8124 (block [] [(1, 0xFF), (2, 0x01)] 0); t.getV 1 = 0 ∧ t.getV VF = 1) ∧
    (let t := ran 0x8124 (block [] [(1, 0x80), (2, 0x7F)] 0); t.getV 1 = 0xFF ∧ t.getV VF = 0) := by decide
theorem test_addReg_A11 : (ran 0x8F14 (block [] [(0xF, 0x09), (1, 0xFF)] 0)).getV VF = 0x08 ∧
    (ran 0x8F14 (under flagLast [(0xF, 0x09), (1, 0xFF)] 0)).getV VF = 1 := by decide
theorem test_subReg_A13_A14 :
    (let t := ran 0x8125 (block [] [(1, 3), (2, 3)] 0); t.getV 1 = 0 ∧ t.getV VF = 0) ∧
    (let t := ran 0x8125 (block [] [(1, 1), (2, 2)] 0); t.getV 1 = 0xFF ∧ t.getV VF = 0) := by decide
theorem test_subReg_A12_A15 : (let t := ran 0x8125 (block [] [(1, 5), (2, 3)] 0); t.getV 1 = 2 ∧ t.getV VF = 1) ∧
    (ran 0x8F15 (block [] [(0xF, 5), (1, 3)] 0)).getV VF = 2 := by decide
theorem test_shr_A17_A25 :
    (let t := ran 0x8106 (block [] [(1, 0xFF)] 0); t.getV 1 = 0x7F ∧ t.getV VF = 1) ∧
    (let t := ran 0x8126 (block [] [(1, 0x04), (2, 0xFF)] 0); t.getV 1 = 0x02 ∧ t.getV VF = 0) := by decide
theorem test_shl_A18_A21 :
    (let t := ran 0x810E (block [] [(1, 0xC1)] 0); t.getV 1 = 0x82 ∧ t.getV VF = 0x80) ∧
    (ran 0x8F0E (block [] [(0xF, 0x81)] 0)).getV VF = 0x02 ∧
    (ran 0x8F0E (under flagLast [(0xF, 0x81)] 0)).getV VF = 0x80 := by decide
theorem test_subn_A22_A24 :
    (let t := ran 0x8127 (block [] [(1, 3), (2, 5)] 0); t.getV 1 = 2 ∧ t.getV VF = 1) ∧
    (let t := ran 0x8127 (block [] [(1, 1), (2, 0)] 0); t.getV 1 = 0xFF ∧ t.getV VF = 0) := by decide
/-- A26 with its draw given: the draw itself is a free value. -/
theorem test_rnd_A26 : (rndWith 0xA7 0 0x0F State.reset).getV 0 = 0x07 := by decide
theorem test_unknown_A28 : let t := ran 0x8128 State.reset
    t.pc = 0x202 ∧ t.fault = some ⟨.unknownOpcode 0x8128, 0x200⟩ := by decide

/-! ## Index and memory -/

theorem test_ldI_M1 : (ran 0xA123 State.reset).i = 0x123 := by decide
theorem test_addI_M2_M3 : (let t := ran 0xF21E (block [] [(2, 5)] 0x0FFE); t.i = 0x1003 ∧ t.fault = none ∧ t.getV VF = 0) ∧
    (ran 0xF21E (block [] [(2, 2)] 0xFFFF)).i = 1 := by decide
theorem test_ldF_M5_M6 : (ran 0xF329 (block [] [(3, 0x10)] 0)).i = 0x050 ∧ (ran 0xF329 (block [] [(3, 0xFF)] 0)).i = 0x4FB := by
  decide
theorem test_ldB_M7 : let t := ran 0xF533 (block [] [(5, 0xFF)] 0x300)
    [0x300, 0x301, 0x302].map t.readByte = [2, 5, 5] ∧ t.i = 0x300 := by decide
theorem test_ldB_M9 : let t := ran 0xF533 (block [] [(5, 0xFF)] 0xFFE)
    t.readByte 0xFFE = 2 ∧ t.readByte 0xFFF = 5 ∧ t.fault = some ⟨.memoryOutOfRange 0x1000, 0x200⟩ ∧
    (let u := ran 0xF533 (under wrapMemory [(5, 0xFF)] 0xFFE); u.readByte 0 = 5 ∧ u.fault = none) := by decide
theorem test_storeRegs_M10 : let t := ran 0xF255 (block [] [(0, 0x11), (1, 0x22), (2, 0x33), (3, 0x44)] 0x300)
    [0x300, 0x301, 0x302, 0x303].map t.readByte = [0x11, 0x22, 0x33, 0] ∧ t.i = 0x300 := by decide
theorem test_storeRegs_M12 : let t := ran 0xF255 (block [] [(0, 0x11), (1, 0x22), (2, 0x33)] 0xFFE)
    t.readByte 0xFFE = 0x11 ∧ t.readByte 0xFFF = 0x22 ∧ t.fault = some ⟨.memoryOutOfRange 0x1000, 0x200⟩ := by decide
theorem test_loadRegs_M13 : let t := ran 0xF265 (block [(0x300, 1), (0x301, 2), (0x302, 3), (0x303, 4)] [] 0x300)
    [0, 1, 2, 3].map t.getV = [1, 2, 3, 0] ∧ t.i = 0x300 := by decide

/-! ## Display -/

theorem test_cls_D1 : let t := ran 0x00E0 (((State.reset.setPixel 0 0).setPixel 63 31).setV VF 1)
    lit t = [] ∧ t.redraw = true ∧ t.getV VF = 1 := by decide
theorem test_drw_D2 : let t := ran 0xD125 (block [] [(1, 3), (2, 2)] 0)
    lit t = [(3, 2), (3, 3), (3, 4), (3, 5), (3, 6), (4, 2), (4, 6), (5, 2), (5, 6), (6, 2), (6, 3), (6, 4), (6, 5), (6, 6)] ∧
    t.getV VF = 0 ∧ t.redraw = true := by decide
theorem test_drw_D4 : (let t := ran 0xD121 ((block [] [(1, 3), (2, 2)] 0).setPixel 7 2)
    lit t = [(3, 2), (4, 2), (5, 2), (6, 2), (7, 2)] ∧ t.getV VF = 1) ∧
    (ran 0xD121 ((under litAndBit [(1, 3), (2, 2)] 0).setPixel 7 2)).getV VF = 0 := by decide
theorem test_drw_D6 : let t := ran 0xD101 (block [] [(1, 60)] 0)
    lit t = [(60, 0), (61, 0), (62, 0), (63, 0)] ∧ t.fault = some ⟨.pixelOutOfRange 64 0, 0x200⟩ ∧ t.redraw = false ∧
    t.getV VF = 0 := by decide
theorem test_drw_D6_clip_wrap : (let t := ran 0xD101 (under clipping [(1, 60)] 0)
    lit t = [(60, 0), (61, 0), (62, 0), (63, 0)] ∧ t.redraw = true ∧ t.fault = none) ∧
    (let t := ran 0xD101 (under wrapping [(1, 60)] 0)
    lit t = [(60, 0), (61, 0), (62, 0), (63, 0)] ∧ t.fault = none) := by decide
theorem test_drw_D9 : let t := ran 0xDF01 (block [] [(0xF, 8)] 0)
    lit t = [(8, 0), (9, 0), (10, 0), (11, 0)] ∧ t.getV VF = 0 := by decide

/-! ## Keys and timers -/

theorem test_skp_K1_K5 : (ran 0xE39E ((block [] [(3, 5)] 0).setKey 5 true)).pc = 0x204 ∧
    (ran 0xE39E (block [] [(3, 5)] 0)).pc = 0x202 ∧
    (ran 0xE39E (block [] [(3, 0x10)] 0)).fault = some ⟨.keyIndexOutOfRange 16, 0x200⟩ := by decide
theorem test_sknp_K3_K4 : (ran 0xE3A1 ((block [] [(3, 5)] 0).setKey 5 true)).pc = 0x202 ∧
    (ran 0xE3A1 (block [] [(3, 5)] 0)).pc = 0x204 := by decide
theorem test_ldVxDT_K6 : let t := ran 0xF207 (State.reset.setDT 0x3C)
    t.getV 2 = 0x3C ∧ t.dt = 0x3B := by decide
theorem test_ldDT_K7_K8 : (ran 0xF215 (block [] [(2, 5)] 0)).dt = 4 ∧ (ran 0xF215 (State.reset.setDT 9)).dt = 0 := by decide
theorem test_ldST_K9_K10 : (let t := ran 0xF218 (block [] [(2, 1)] 0); t.st = 0 ∧ t.beeps = 1) ∧
    (let t := ran 0xF218 (block [] [(2, 2)] 0); t.st = 1 ∧ t.beeps = 0) := by decide
theorem test_ldST_K11 : let t := ran 0xF218 (State.reset.setST 1)
    t.st = 0 ∧ t.beeps = 0 := by decide
theorem test_ldVxK_K12 : let t := ran 0xF20A ((State.reset.setDT 2).setST 1)
    t.run = .waitingForKey 2 ∧ t.pc = 0x202 ∧ t.dt = 1 ∧ t.st = 0 ∧ t.beeps = 1 := by decide
theorem test_tick_K13 : let t := ran 0x6000 ((State.reset.setDT 1).setST 1)
    t.dt = 0 ∧ t.st = 0 ∧ t.beeps = 1 := by decide
theorem test_pressKey_K15 : let t := pressKey 9 (State.reset.setRun (.waitingForKey 2))
    t.getKey 9 = true ∧ t.getV 2 = 9 ∧ t.run = .running ∧ t.pc = 0x200 := by decide
theorem test_releaseKey_K17 : let t := releaseKey 9 ((State.reset.setKey 9 true).setRun (.waitingForKey 2))
    t.getKey 9 = false ∧ t.run = .waitingForKey 2 := by decide

/-! ## The step, faults and the host -/

theorem test_fetch_E1 : let t := blockAfterStep (State.reset.setPc 0xFFF)
    t.pc = 0xFFF ∧ t.fault = some ⟨.memoryOutOfRange 0x1000, 0xFFF⟩ := by decide
theorem test_fetch_odd_E2 : let t := blockAfterStep ((block [(0x201, 0x60), (0x202, 0x07)] [] 0).setPc 0x201)
    t.getV 0 = 7 ∧ t.pc = 0x203 := by decide
theorem test_faulted_E3 : let s := (State.reset.setDT 5).recordFault ⟨.unknownOpcode 0, 0x200⟩
    step s = .fault (.unknownOpcode 0) ∧ blockAfterStep s = s := ⟨rfl, rfl⟩
theorem test_fault_codes : [Fault.stackOverflow 0, .stackUnderflow, .unknownOpcode 0, .memoryOutOfRange 0,
    .pixelOutOfRange 0 0, .keyIndexOutOfRange 0].map Fault.code = [1, 2, 3, 4, 5, 6] := by decide
/-- R134's test on JP, CALL and RET to their own address (log 18): all three pass it, the CALL having pushed. -/
theorem test_spins : (let t := ran 0x1200 State.reset; t.pc = 0x200 ∧ t.sp = 0) ∧
    (let t := ran 0x2200 State.reset; t.pc = 0x200 ∧ t.sp = 1) ∧
    (let t := ran 0x00EE (State.reset.setStack 0 0x200 1); t.pc = 0x200 ∧ t.sp = 0) := by decide
theorem test_reset_runs_to_unknown_opcode : (blockAfterStep State.reset).fault = some ⟨.unknownOpcode 0, 0x200⟩ := by decide
theorem test_withFetchWord : (State.reset.withFetchWord 16 0x6101).mem = [(0x200, 0x61), (0x201, 0x01)] := by decide
/-- A session launched with an image; a refused launch gives a session that has run nothing, for the tests alone. -/
def launched (bytes : List Byte) : Session :=
  match Session.launch Config.default bytes with
  | .next u => u
  | .fault _ => ⟨.loaded, State.reset⟩
  | .refused _ => ⟨.loaded, State.reset⟩

/-- S10's first step, run from a launch; the launch takes no step. -/
theorem test_launch_then_step : (launched [0x61, 0x01]).phase = .loaded ∧ (launched [0x61, 0x01]).block.getV 1 = 0 ∧
    (let u := (hostOp .step (launched [0x61, 0x01])).1; u.block.getV 1 = 1 ∧ u.phase = .stepped) := by decide
/-- R294: one load, at the launch. -/
theorem test_load_refused_after_launch : (hostOp (.loadProgram [0x62]) (launched [0x61])).2 = .notAdmitted .loadTwice ∧
    (hostOp (.loadProgram [0x62]) (hostOp .step (launched [0x61])).1).2 = .notAdmitted .loadAfterStep := by decide
theorem test_memory_is_canonical : let s := (State.reset.putByte 0x300 7).putByte 0 9;
    s.mem = [(0, 9), (0x300, 7)] ∧ ((s.putByte 0 0xF0).putByte 0x300 0).mem = [] := by decide

/-! ## Witnesses: what the hypotheses of the obligations ask for, met -/

/-- A state that fetches an instruction, from facts that can be evaluated. -/
theorem fetches_of {s : State} {i : Instr} (op : Word) (hf : s.fault = none) (hr : s.run = .running)
    (ho : fetch s = .ok op) (hd : decodeWord op = .ok i) : s.Fetches i := ⟨⟨hf, hr⟩, op, ho, hd⟩

theorem exists_of_isOk {ε α : Type} {e : Except ε α} (h : e.isOk = true) : ∃ a, e = .ok a := by
  cases e with
  | ok a => exact ⟨a, rfl⟩
  | error _ => cases h

/-- Row `k` can be drawn, as a Boolean. -/
def rowOk (s : State) (cx cy k : Nat) : Bool :=
  (memRead (effAddr s k) s).isOk && (List.range 8).all fun j => (target s.cfg (cx + j) (cy + k)).isOk

theorem rowDrawable_of {s : State} {cx cy k : Nat} (h : rowOk s cx cy k = true) : RowDrawable s cx cy k := by
  simp only [rowOk, Bool.and_eq_true, List.all_eq_true, List.mem_range] at h
  exact ⟨exists_of_isOk h.1, fun j hj => exists_of_isOk (h.2 j hj)⟩

/-- The construction state with this word at `pc`. -/
abbrev at200 (w : Nat) : State := State.reset.withFetchWord 16 w

/-- One instruction of each constructor, with its word. -/
def everyInstruction : List (Word × Instr) :=
  [(0x00E0, .cls), (0x00EE, .ret), (0x1FFF, .jp 0xFFF), (0x2ABC, .call 0xABC), (0x3A12, .seImm 0xA 0x12),
   (0x4A12, .sneImm 0xA 0x12), (0x5AB0, .seReg 0xA 0xB), (0x6101, .ldImm 1 1), (0x7F01, .addImm 0xF 1),
   (0x8120, .ldReg 1 2), (0x8121, .orReg 1 2), (0x8122, .andReg 1 2), (0x8123, .xorReg 1 2), (0x8124, .addReg 1 2),
   (0x8125, .subReg 1 2), (0x8106, .shr 1), (0x8127, .subn 1 2), (0x810E, .shl 1), (0x9AB0, .sneReg 0xA 0xB),
   (0xA123, .ldI 0x123), (0xB300, .jpV0 0x300), (0xC00F, .rnd 0 0x0F), (0xD125, .drw 1 2 5), (0xE39E, .skp 3),
   (0xE3A1, .sknp 3), (0xF207, .ldVxDT 2), (0xF20A, .ldVxK 2), (0xF215, .ldDT 2), (0xF218, .ldST 2),
   (0xF21E, .addI 2), (0xF329, .ldF 3), (0xF533, .ldB 5), (0xF255, .storeRegs 2), (0xFF65, .loadRegs 0xF)]

/-- Every instruction is fetched in some state, as the hypotheses on Fetches ask. -/
theorem witness_Fetches : ∀ p ∈ everyInstruction, (at200 p.1.toNat).Fetches p.2 := by
  have h : ∀ p ∈ everyInstruction, (at200 p.1.toNat).fault = none ∧ (at200 p.1.toNat).run = .running ∧
      fetch (at200 p.1.toNat) = .ok p.1 ∧ decodeWord p.1 = .ok p.2 := by decide
  exact fun p hp => fetches_of p.1 (h p hp).1 (h p hp).2.1 (h p hp).2.2.1 (h p hp).2.2.2

theorem witness_DecodeOfEncodeIsIdentity : (Instr.drw 15 15 15).wf = true := by decide

theorem witness_NoTwoOpcodeRowsSelectOneWord : rowOf (.subn 0 0) ∈ opcodeMap ∧ (rowOf (.subn 0 0)).selects 0x8FF7 = true := by
  decide

/-- The last address whose word lies in memory, and the first past it under wrap. -/
theorem witness_StepRunsTheDecodedInstruction :
    (let s := (State.reset.setPc 0xFFE).withFetchWord 16 0x6107;
      s.Ready ∧ resolve s.cfg s.pc.toNat = .ok 0xFFE ∧ resolve s.cfg (s.pc.toNat + 1) = .ok 0xFFF ∧
      decodeWord (wordOfBytes (s.readByte 0xFFE) (s.readByte 0xFFF)) = .ok (.ldImm 1 7) ∧
      ∃ u, exec (.ldImm 1 7) (s.setPc (s.pc + 2)) = .next u) ∧
    (let s := ((under wrapMemory [] 0).setPc 0xFFF).withFetchWord 16 0x6107;
      s.Ready ∧ resolve s.cfg s.pc.toNat = .ok 0xFFF ∧ resolve s.cfg (s.pc.toNat + 1) = .ok 0 ∧
      decodeWord (wordOfBytes (s.readByte 0xFFF) (s.readByte 0)) = .ok (.ldImm 1 7)) := by
  refine ⟨⟨⟨rfl, rfl⟩, by decide, by decide, by decide, _, rfl⟩, ⟨rfl, rfl⟩, by decide, by decide, by decide⟩

/-- The last byte of memory, the first past it, and the highest address. -/
theorem witness_FetchPastMemoryFaults : State.reset.Ready ∧ State.reset.cfg.memOob = .fault ∧
    State.reset.cfg.memSize ≤ (State.reset.setPc 0xFFF).pc.toNat + 1 ∧
    State.reset.cfg.memSize ≤ (State.reset.setPc 0x1000).pc.toNat ∧
    State.reset.cfg.memSize ≤ (State.reset.setPc 0xFFFF).pc.toNat := ⟨⟨rfl, rfl⟩, rfl, by decide, by decide, by decide⟩

theorem witness_UnknownOpcodeChangesOnlyPc : State.reset.Ready ∧ fetch State.reset = .ok 0 ∧
    decodeWord 0 = .error (.unknownOpcode 0) := ⟨⟨rfl, rfl⟩, by decide, by decide⟩

theorem witness_WaitingStepsChangeNothing : let s := State.reset.setRun (.waitingForKey 15);
    s.fault = none ∧ s.run = .waitingForKey 15 := ⟨rfl, rfl⟩

abbrev faulted : State := State.reset.recordFault ⟨.unknownOpcode 0, 0x200⟩

theorem witness_FaultedStepReturnsItsFault : (⟨.stepped, faulted⟩ : Session).block.fault = some ⟨.unknownOpcode 0, 0x200⟩ := rfl

/-- A fetch fault, and a fault of a body. -/
theorem witness_RaisingStepDoesNotTick :
    (let s := State.reset.setPc 0xFFF;
      s.Ready ∧ fetch s = .error (.memoryOutOfRange 0x1000) ∧
      ∃ t, step s = .next t ∧ t.fault = some ⟨.memoryOutOfRange 0x1000, 0xFFF⟩) ∧
    (let s := at200 0x00EE;
      s.Ready ∧ fetch s = .ok 0x00EE ∧ ∃ t, step s = .next t ∧ t.fault = some ⟨.stackUnderflow, 0x200⟩) := by
  refine ⟨⟨⟨rfl, rfl⟩, by decide, _, rfl, by decide⟩, ⟨rfl, rfl⟩, by decide, _, rfl, by decide⟩

theorem witness_CompletedStepTicks : (at200 0x6101).Fetches (.ldImm 1 1) ∧
    ∃ u, exec (.ldImm 1 1) ((at200 0x6101).setPc ((at200 0x6101).pc + 2)) = .next u ∧ u.fault = none :=
  ⟨fetches_of 0x6101 rfl rfl (by decide) (by decide), _, rfl, rfl⟩

theorem witness_EveryStepAnswers : State.reset.fault = none ∧ faulted.fault = some ⟨.unknownOpcode 0, 0x200⟩ := ⟨rfl, rfl⟩

/-- A step that faults and one that does not; the second's clause is by instruction, each of which witness_Fetches fetches. -/
theorem witness_PcAfterEachInstruction :
    ((at200 0x00EE).Fetches .ret ∧ ∃ t, step (at200 0x00EE) = .next t ∧ t.fault ≠ none) ∧
    ((at200 0x1FFF).Fetches (.jp 0xFFF) ∧ ∃ t, step (at200 0x1FFF) = .next t ∧ t.fault = none) :=
  ⟨⟨fetches_of 0x00EE rfl rfl (by decide) (by decide), _, rfl, by decide⟩,
   ⟨fetches_of 0x1FFF rfl rfl (by decide) (by decide), _, rfl, by decide⟩⟩

theorem at200_inv : (at200 0x6101).Inv := by
  refine ⟨by decide, ?_, fun _ => rfl⟩
  have h : (at200 0x6101).mem = [(0x200, 0x61), (0x201, 0x01)] := by decide
  rw [h]; decide

theorem witness_StepKeepsInvariant : (at200 0x6101).Inv ∧ ∃ t, step (at200 0x6101) = .next t := ⟨at200_inv, _, rfl⟩

theorem witness_EverySessionStateMeetsInvariant : Config.default.wf = true ∧ wrapMemory.wf = true ∧
    (∃ u, Session.launch Config.default [0x61, 0x01] = .next u) ∧ ∃ u, Session.launch wrapMemory [] = .next u :=
  ⟨by decide, by decide, ⟨_, rfl⟩, _, rfl⟩

theorem witness_HostOperationsKeepInvariant : (⟨.loaded, at200 0x6101⟩ : Session).block.Inv := at200_inv

/-- The longest image that fits, and one byte more. -/
theorem witness_LaunchConstructsAndLoads :
    (List.replicate 3584 (0 : Byte)).length ≤ Config.default.memSize - Config.default.progStart.toNat ∧
    Config.default.memSize - Config.default.progStart.toNat < (List.replicate 3585 (0 : Byte)).length := by
  rw [List.length_replicate, List.length_replicate]; decide

theorem witness_ReadAfterWriteGivesTheByte : resolve Config.default 0xFFF = .ok 0xFFF ∧ resolve wrapMemory 0x1000 = .ok 0 ∧
    resolve wrapMemory 0x1FFF ≠ .ok 0 := by decide

theorem witness_OutOfRangeFollowsThePolicy : 0xFFF < Config.default.memSize ∧
    (Config.default.memSize ≤ 0x1000 ∧ Config.default.memOob = .fault) ∧
    (wrapMemory.memSize ≤ 0x1000 ∧ wrapMemory.memOob = .wrap) := by decide

theorem witness_WordsAreReadBigEndian :
    memRead 0 State.reset = .ok 0xF0 ∧ memRead 1 State.reset = .ok 0x90 ∧
    memRead 0x1000 State.reset = .error (.memoryOutOfRange 0x1000) ∧ memRead 0xFFF State.reset = .ok 0 := by decide

theorem witness_StoredWordIsFetched : State.reset.cfg.wf = true ∧
    ∃ t, memWriteWord (State.reset.setPc 0xFFE).pc.toNat 0x1234 (State.reset.setPc 0xFFE) = .done t := ⟨by decide, _, rfl⟩

theorem witness_LoadProgramCopiesTheImage :
    (List.replicate 3584 (0 : Byte)).length ≤ State.reset.cfg.memSize - State.reset.cfg.progStart.toNat ∧
    State.reset.cfg.memSize - State.reset.cfg.progStart.toNat < (List.replicate 3585 (0 : Byte)).length := by
  rw [List.length_replicate, List.length_replicate]; decide

theorem witness_CallPushesTheReturnAddress : ((State.reset.setSp 15).sp.val < 16) ∧ (State.reset.setSp 16).sp.val = 16 ∧
    ((State.reset.setSp 16).withFetchWord 16 0x2300).Fetches (.call 0x300) :=
  ⟨by decide, by decide, fetches_of 0x2300 rfl rfl (by decide) (by decide)⟩

theorem witness_ReturnPopsIntoPc : (State.reset.setSp 16).sp.val = (15 : Fin 16).val + 1 ∧
    (State.reset.setSp 1).sp.val = (0 : Fin 16).val + 1 ∧ (at200 0x00EE).sp.val = 0 ∧ (at200 0x00EE).Fetches .ret :=
  ⟨by decide, by decide, by decide, fetches_of 0x00EE rfl rfl (by decide) (by decide)⟩

theorem witness_CallThenReturnRoundTrip : (State.reset.setSp 15).sp.val = (15 : Fin 16).val ∧
    ∃ t, exec (.call 0x300) (State.reset.setSp 15) = .next t ∧ (t.setPc 0x400).sp = t.sp ∧
      (t.setPc 0x400).getSlot 15 = t.getSlot 15 := ⟨by decide, _, rfl, rfl, rfl⟩

theorem witness_KeySkipsTestTheLatch : ((block [] [(3, 15)] 0).getV 3).toNat = (15 : Fin 16).val ∧
    (let s := (block [] [(3, 16)] 0).withFetchWord 16 0xE39E; 16 ≤ (s.getV 3).toNat ∧ s.Fetches (.skp 3)) ∧
    (let s := (block [] [(3, 0xFF)] 0).withFetchWord 16 0xE3A1; 16 ≤ (s.getV 3).toNat ∧ s.Fetches (.sknp 3)) :=
  ⟨by decide, ⟨by decide, fetches_of 0xE39E rfl rfl (by decide) (by decide)⟩,
   by decide, fetches_of 0xE3A1 rfl rfl (by decide) (by decide)⟩

/-- A destination other than VF, and VF under each order. -/
theorem witness_FlagWritten : (1 : Reg) ≠ VF ∧ Config.default.vfDestOrder = .flagThenResult := by decide

/-- The five forms, with the vectors A11, A15 and its reverse, A20, A21. -/
theorem witness_DestinationVfFollowsTheOrder : flagLast.vfDestOrder = .resultThenFlag ∧
    (let s := block [] [(0xF, 0x09), (1, 0xFF)] 0;
      (0x08 : Byte).toNat = ((s.getV VF).toNat + (s.getV 1).toNat) % 256 ∧
      (0x01 : Byte).toNat = ((s.getV VF).toNat + (s.getV 1).toNat) / 256) ∧
    (let s := block [] [(0xF, 5), (1, 3)] 0;
      (0x02 : Byte) = s.getV VF - s.getV 1 ∧ (0x01 : Byte) = (if (s.getV 1).toNat < (s.getV VF).toNat then 1 else 0)) ∧
    (let s := block [] [(0xF, 5), (1, 3)] 0;
      (0xFE : Byte) = s.getV 1 - s.getV VF ∧ (0x00 : Byte) = (if (s.getV VF).toNat < (s.getV 1).toNat then 1 else 0)) ∧
    (let s := block [] [(0xF, 3)] 0;
      (0x01 : Byte).toNat = (s.getV VF).toNat / 2 ∧ (0x01 : Byte) = s.getV VF &&& 0x01) ∧
    (let s := block [] [(0xF, 0x81)] 0;
      (0x02 : Byte).toNat = (s.getV VF).toNat * 2 % 256 ∧ (0x80 : Byte) = s.getV VF &&& 0x80) := by decide

theorem witness_InstructionsWriteOnlyTheirRegisters : (∃ t, exec (.loadRegs 14) (block [] [] 0x300) = .next t) ∧
    mayWriteV (.loadRegs 14) 15 = false := ⟨⟨_, rfl⟩, by decide⟩

/-- All three bytes in reach, the last one in memory; the third out of reach; the first out of reach. -/
theorem witness_BcdStoresThreeDigits :
    State.reset.cfg.wf = true ∧ ((2 : Byte).toNat = (255 : Byte).toNat / 100 ∧ (5 : Byte).toNat = (255 : Byte).toNat / 10 % 10 ∧
      (5 : Byte).toNat = (255 : Byte).toNat % 10) ∧
    (∀ k < 3, ∃ a, resolve State.reset.cfg (effAddr (block [] [] 0xFFD) k) = .ok a) ∧
    ((∀ j < 2, ∃ a, resolve State.reset.cfg (effAddr (block [] [] 0xFFE) j) = .ok a) ∧
      resolve State.reset.cfg (effAddr (block [] [] 0xFFE) 2) = .error (.memoryOutOfRange 0x1000)) ∧
    resolve State.reset.cfg (effAddr (block [] [] 0x1000) 0) = .error (.memoryOutOfRange 0x1000) := by
  have h : (∀ k < 3, (resolve State.reset.cfg (effAddr (block [] [] 0xFFD) k)).isOk = true) ∧
      ∀ j < 2, (resolve State.reset.cfg (effAddr (block [] [] 0xFFE) j)).isOk = true := by decide
  exact ⟨by decide, by decide, fun k hk => exists_of_isOk (h.1 k hk), ⟨fun j hj => exists_of_isOk (h.2 j hj), by decide⟩,
    by decide⟩

/-- All sixteen bytes in reach, the last one in memory; the sixteenth out of reach. -/
theorem witness_StoreRegistersWritesV0ToVx :
    State.reset.cfg.wf = true ∧ (∀ r : Reg, r ≤ 15 → (fun _ => (0 : Byte)) r.val = State.reset.getV r) ∧
    (∀ k ≤ 15, ∃ a, resolve State.reset.cfg (effAddr (block [] [] 0xFF0) k) = .ok a) ∧
    (∀ j < 15, ∃ a, resolve State.reset.cfg (effAddr (block [] [] 0xFF1) j) = .ok a) ∧
    resolve State.reset.cfg (effAddr (block [] [] 0xFF1) 15) = .error (.memoryOutOfRange 0x1000) := by
  have h : (∀ k ≤ 15, (resolve State.reset.cfg (effAddr (block [] [] 0xFF0) k)).isOk = true) ∧
      ∀ j < 15, (resolve State.reset.cfg (effAddr (block [] [] 0xFF1) j)).isOk = true := by decide
  exact ⟨by decide, by decide, fun k hk => exists_of_isOk (h.1 k hk), fun j hj => exists_of_isOk (h.2 j hj), by decide⟩

theorem witness_LoadRegistersReadsV0ToVx :
    (∀ k ≤ 15, ∃ b, memRead (effAddr (block [] [] 0xFF0) k) (block [] [] 0xFF0) = .ok b) ∧
    (∀ j < 15, ∃ b, memRead (effAddr (block [] [] 0xFF1) j) (block [] [] 0xFF1) = .ok b) ∧
    memRead (effAddr (block [] [] 0xFF1) 15) (block [] [] 0xFF1) = .error (.memoryOutOfRange 0x1000) := by
  have h : (∀ k ≤ 15, (memRead (effAddr (block [] [] 0xFF0) k) (block [] [] 0xFF0)).isOk = true) ∧
      ∀ j < 15, (memRead (effAddr (block [] [] 0xFF1) j) (block [] [] 0xFF1)).isOk = true := by decide
  exact ⟨fun k hk => exists_of_isOk (h.1 k hk), fun j hj => exists_of_isOk (h.2 j hj), by decide⟩

/-- The corner of the grid; the first column and the first row off it; each policy. -/
theorem witness_TargetFollowsTheOffscreenPolicy : ((63 : Fin 64).val = 63 ∧ (31 : Fin 32).val = 31) ∧
    (64 ≤ 64 ∨ 32 ≤ 0) ∧ (64 ≤ 0 ∨ 32 ≤ 32) ∧ Config.default.offscreen = .fault ∧ clipping.offscreen = .clip ∧
    wrapping.offscreen = .wrap ∧ (0 : Fin 64).val = 64 % 64 ∧ (0 : Fin 32).val = 32 % 32 := by decide

theorem witness_CollisionFollowsTheRule : Config.default.collision = .anyLitPixel ∧ litAndBit.collision = .litAndSpriteBit := by
  decide

/-- The tallest sprite in the last place it fits; off the grid under clip; and a lit bit over a pixel that is off. -/
theorem witness_DrawComposesTheSprite :
    (∀ k < 15, RowDrawable (block [] [(1, 56), (2, 17)] 0) 56 17 k) ∧
    (∀ k < 15, RowDrawable (under clipping [(1, 255), (2, 255)] 0) 255 255 k) := by
  have h : (∀ k < 15, rowOk (block [] [(1, 56), (2, 17)] 0) 56 17 k = true) ∧
      ∀ k < 15, rowOk (under clipping [(1, 255), (2, 255)] 0) 255 255 k = true := by decide
  exact ⟨fun k hk => rowDrawable_of (h.1 k hk), fun k hk => rowDrawable_of (h.2 k hk)⟩

theorem witness_DrawingTwiceRestoresTheScreen : let s := block [] [(1, 3), (2, 2)] 0;
    (1 : Reg) ≠ VF ∧ (2 : Reg) ≠ VF ∧ (∀ k < 5, RowDrawable s (s.getV 1).toNat (s.getV 2).toNat k) ∧
    (∃ t, exec (.drw 1 2 5) s = .next t) ∧
    SpriteCell s (s.getV 1).toNat (s.getV 2).toNat 0 0 3 2 true ∧ s.getPixel 3 2 = false := by
  have h : ∀ k < 5, rowOk (block [] [(1, 3), (2, 2)] 0) 3 2 k = true := by decide
  refine ⟨by decide, by decide, fun k hk => rowDrawable_of (h k hk), ⟨_, rfl⟩, ⟨by decide, 0xF0, by decide, by decide⟩, by decide⟩

/-- D8: a row out of reach; D6: a column off the grid; D7: a row off the grid. -/
theorem witness_DrawFaultKeepsWhatWasDrawn :
    (RowDrawable (block [] [] 0xFFF) 0 0 0 ∧
      memRead (effAddr (block [] [] 0xFFF) 1) (block [] [] 0xFFF) = .error (.memoryOutOfRange 0x1000)) ∧
    (memRead (effAddr State.reset 0) State.reset = .ok 0xF0 ∧
      (∀ i < 4, ∃ p, target State.reset.cfg (60 + i) (0 + 0) = .ok p) ∧
      target State.reset.cfg (60 + 4) (0 + 0) = .error (.pixelOutOfRange 64 0)) ∧
    ((∀ i < 4, RowDrawable State.reset 0 28 i) ∧ target State.reset.cfg (0 + 0) (28 + 4) = .error (.pixelOutOfRange 0 32)) := by
  have h : rowOk (block [] [] 0xFFF) 0 0 0 = true ∧ (∀ i < 4, (target State.reset.cfg (60 + i) (0 + 0)).isOk = true) ∧
      ∀ i < 4, rowOk State.reset 0 28 i = true := by decide
  exact ⟨⟨rowDrawable_of h.1, by decide⟩, ⟨by decide, fun i hi => exists_of_isOk (h.2.1 i hi), by decide⟩,
    fun i hi => rowDrawable_of (h.2.2 i hi), by decide⟩

/-- The first and the last column. -/
theorem witness_SpriteColumnsRunFromBitSeven : 0 < 8 ∧ 7 < 8 ∧ spriteBit 0x80 0 = true ∧ spriteBit 0x01 7 = true := by decide

theorem witness_TimersTickInTheStepThatUsesThem : (at200 0xF207).Fetches (.ldVxDT 2) ∧ (at200 0xF215).Fetches (.ldDT 2) ∧
    (at200 0xF218).Fetches (.ldST 2) :=
  ⟨witness_Fetches (0xF207, .ldVxDT 2) (by decide), witness_Fetches (0xF215, .ldDT 2) (by decide),
   witness_Fetches (0xF218, .ldST 2) (by decide)⟩

theorem witness_WaitForKeyEntersTheWait : (at200 0xF20A).Fetches (.ldVxK 2) :=
  witness_Fetches (0xF20A, .ldVxK 2) (by decide)

/-- A press and a release of the last key, an index past it, and a session that waits. -/
theorem witness_KeyEventsSetTheLatchAndEndTheWait : (15 : Fin 16).val = 15 ∧ 16 ≤ 16 ∧
    (⟨.stepped, State.reset.setRun (.waitingForKey 15)⟩ : Session).block.run = .waitingForKey 15 ∧
    (⟨.stepped, State.reset⟩ : Session).block.run = .running := ⟨rfl, Nat.le_refl 16, rfl, rfl⟩

theorem witness_EachKindOfStateHasItsWriters : (∃ t, exec (.addImm 1 1) State.reset = .next t) ∧
    Instr.addImm 1 1 ≠ .ret ∧ (∀ nnn, Instr.addImm 1 1 ≠ .call nnn) ∧ ∀ x, Instr.addImm 1 1 ≠ .storeRegs x :=
  ⟨⟨_, rfl⟩, by decide, fun _ => by simp, fun _ => by simp⟩

theorem witness_OnlyKeyEventsChangeTheLatch : let u : Session := ⟨.loaded, State.reset⟩;
    (hostOp (.pressKey 15) u).1.block.getKey 15 ≠ u.block.getKey 15 := by decide

theorem witness_OnlyFx0aEntersAndPressKeyLeavesTheWait :
    (let u : Session := ⟨.loaded, at200 0xF20A⟩;
      u.block.run = .running ∧ (hostOp .step u).1.block.run ≠ .running) ∧
    (let u : Session := ⟨.stepped, State.reset.setRun (.waitingForKey 2)⟩;
      u.block.run = .waitingForKey 2 ∧ (hostOp (.pressKey 9) u).1.block.run ≠ .waitingForKey 2) ∧
    ∃ u, Session.launch Config.default [0xF2, 0x0A] = .next u := ⟨by decide, by decide, _, rfl⟩

/-- A step whose tick takes the sound timer from 1 to 0, and one that finds it at 2. -/
theorem witness_OnlyTheTickBeeps :
    (let s := (State.reset.setST 1).withFetchWord 16 0x6000;
      s.Fetches (.ldImm 0 0) ∧ ∃ w, exec (.ldImm 0 0) (s.setPc (s.pc + 2)) = .next w ∧ w.fault = none ∧ w.st.toNat = 1) ∧
    (let s := (State.reset.setST 2).withFetchWord 16 0x6000;
      s.Fetches (.ldImm 0 0) ∧ ∃ w, exec (.ldImm 0 0) (s.setPc (s.pc + 2)) = .next w ∧ w.fault = none ∧ w.st.toNat ≠ 1) :=
  ⟨⟨fetches_of 0x6000 rfl rfl (by decide) (by decide), _, rfl, by decide, by decide⟩,
   ⟨fetches_of 0x6000 rfl rfl (by decide) (by decide), _, rfl, by decide, by decide⟩⟩

theorem witness_FaultedStateIsTerminal : let u : Session := ⟨.stepped, faulted⟩;
    u.phase = .stepped ∧ u.block.Inv ∧ u.block.fault = some ⟨.unknownOpcode 0, 0x200⟩ :=
  ⟨rfl, ⟨by decide, by decide, fun _ => rfl⟩, rfl⟩

/-- C4, with the sound timer at the boundary of its beep. -/
theorem witness_SpinningOnlyTicksTheTimers : let s := (State.reset.setST 1).withFetchWord 16 0x1200;
    s.Fetches (.jp 0x200) ∧ s.pc.toNat = (0x200 : BitVec 12).toNat ∧ s.st.toNat = 1 :=
  ⟨fetches_of 0x1200 rfl rfl (by decide) (by decide), by decide, by decide⟩

end Sys2Proof.Tests
end

section
/-!
PROOFS. The run state and the beep count over instructions, steps and host operations (spec/10_state.md R44, R48).
-/

namespace Sys2Proof.Machine

/-! ## What no instruction but FX0A writes -/

/-- The run state, the key latch and the beep count are unchanged. Of the instructions only FX0A writes one of them (R44, R45,
R48). -/
structure EventStateKept (s t : State) : Prop where
  run   : t.run = s.run
  keys  : t.keys = s.keys
  beeps : t.beeps = s.beeps

theorem EventStateKept.refl (s : State) : EventStateKept s s := ⟨rfl, rfl, rfl⟩

theorem EventStateKept.trans {s t u : State} (h : EventStateKept s t) (g : EventStateKept t u) : EventStateKept s u :=
  ⟨g.run.trans h.run, g.keys.trans h.keys, g.beeps.trans h.beeps⟩

theorem PartlyDone.eventStateKept {s t : State} (h : PartlyDone s t) : EventStateKept s t := by
  rw [h]; exact ⟨rfl, rfl, rfl⟩

theorem skipIf_keeps_eventState (b : Bool) (s : State) : EventStateKept s (skipIf b s) := by
  rw [skipIf_eq]; exact ⟨rfl, rfl, rfl⟩

theorem writeFlagged_keeps_eventState (x : Reg) (flag result : Byte) (s : State) :
    EventStateKept s (writeFlagged x flag result s) := by
  unfold writeFlagged; split <;> exact ⟨rfl, rfl, rfl⟩

theorem push_keeps_eventState (w : Word) (s : State) : EventStateKept s (push w s).state := by
  unfold push; split <;> exact ⟨rfl, rfl, rfl⟩

theorem pop_keeps_eventState {s t : State} {w : Word} (h : pop s = .ok (w, t)) : EventStateKept s t := by
  unfold pop at h
  split at h
  · cases h; exact ⟨rfl, rfl, rfl⟩
  · cases h

theorem draw_keeps_eventState (cx cy n : Nat) (s : State) :
    EventStateKept s (Body.forEach (drawRow cx cy) (List.range n) (s.setV VF 0)).state :=
  .trans (t := s.setV VF 0) ⟨rfl, rfl, rfl⟩ (drawsOnly_partly (draw_keeps cx cy _ (s.setV VF 0))).eventStateKept

/-- A last part of a body that only updates other fields keeps what the parts before it kept. -/
theorem andThen_done_keeps_eventState {r : Body} {s : State} {f : State → State} (hr : EventStateKept s r.state)
    (hf : ∀ u, EventStateKept u (f u)) : EventStateKept s (r.andThen fun u => .done (f u)).state := by
  cases r with
  | raised e u => exact hr
  | done u => exact hr.trans (hf u)

/-- Taking a body's fault adds nothing to what the body wrote. -/
theorem outcome_keeps_eventState {r : Body} {s t : State} (hr : EventStateKept s r.state) (h : r.outcome = .next t) :
    EventStateKept s t := by
  rcases outcome_cases r with ⟨-, ho⟩ | ⟨f, -, ho⟩
  · rw [ho] at h; cases h; exact hr
  · rw [ho] at h; cases h; exact hr.trans ⟨rfl, rfl, rfl⟩

/-- R44, R45, R48: no instruction but FX0A changes the run state, and none changes the latch or the beep count. -/
theorem exec_keeps_eventState {i : Instr} {s t : State} (h : exec i s = .next t) (hi : ∀ x, i ≠ .ldVxK x) :
    EventStateKept s t := by
  cases i <;> simp only [exec] at h
  case ldVxK x => exact absurd rfl (hi x)
  case ret =>
    unfold execRet at h
    split at h
    · next w u hp => cases h; exact (pop_keeps_eventState hp).trans ⟨rfl, rfl, rfl⟩
    · cases h; exact ⟨rfl, rfl, rfl⟩
  case call nnn =>
    refine outcome_keeps_eventState ?_ h
    exact andThen_done_keeps_eventState (push_keeps_eventState s.pc s) fun _ => ⟨rfl, rfl, rfl⟩
  case skp x | sknp x =>
    simp only [execSkp, execSknp] at h
    split at h
    · cases h; exact skipIf_keeps_eventState ..
    · cases h; exact ⟨rfl, rfl, rfl⟩
  case drw x y n =>
    refine outcome_keeps_eventState ?_ h
    exact andThen_done_keeps_eventState (draw_keeps_eventState _ _ n s) fun _ => ⟨rfl, rfl, rfl⟩
  case ldB x => exact outcome_keeps_eventState (storesOnly_partly (stores_keep _ s)).eventStateKept h
  case storeRegs x =>
    rw [execStoreRegs, forEach_storeReg] at h
    exact outcome_keeps_eventState (storesOnly_partly (stores_keep _ s)).eventStateKept h
  case loadRegs x => exact outcome_keeps_eventState (regsOnly_partly (loads_keep x s).1).eventStateKept h
  case seImm | sneImm | seReg | sneReg => cases h; exact skipIf_keeps_eventState ..
  case addReg | subReg | subn | shr | shl => cases h; exact writeFlagged_keeps_eventState ..
  all_goals cases h; exact ⟨rfl, rfl, rfl⟩

theorem exec_keeps_beeps {i : Instr} {s t : State} (h : exec i s = .next t) : t.beeps = s.beeps := by
  by_cases hi : ∃ x, i = .ldVxK x
  · obtain ⟨x, rfl⟩ := hi; cases h; rfl
  · exact (exec_keeps_eventState h fun x e => hi ⟨x, e⟩).beeps

/-- An instruction leaves the run state as it was, or is the FX0A that waits. -/
theorem exec_run_cases {i : Instr} {s t : State} (h : exec i s = .next t) :
    t.run = s.run ∨ ∃ x, i = .ldVxK x ∧ t.run = .waitingForKey x := by
  by_cases hi : ∃ x, i = .ldVxK x
  · obtain ⟨x, rfl⟩ := hi; cases h; exact .inr ⟨x, rfl, rfl⟩
  · exact .inl (exec_keeps_eventState h fun x e => hi ⟨x, e⟩).run

/-! ## Over a step -/

theorem endStep_run (u : State) : (endStep u).run = u.run := by unfold endStep; split <;> simp

/-- The end of a step beeps if it ticks, and its tick finds ST = 1 (R44). -/
theorem endStep_beeps (u : State) :
    (endStep u).beeps = if u.fault = none ∧ u.st.toNat = 1 then u.beeps + 1 else u.beeps := by
  cases hf : u.fault with
  | none => simp [endStep_none hf, tick_beeps]
  | some r => simp [endStep_some hf]

/-- The block after a step: an instruction has run to the end of its step, or none did and the run state, the latch and the
beep count are as they were. -/
theorem blockAfterStep_cases (s : State) :
    (∃ i u, s.Fetches i ∧ exec i (advancePc s) = .next u ∧ blockAfterStep s = endStep u) ∨
    EventStateKept s (blockAfterStep s) := by
  cases h : step s with
  | fault f => simp [blockAfterStep, h, EventStateKept.refl]
  | refused r => simp [blockAfterStep, h, EventStateKept.refl]
  | next t =>
    have hb : blockAfterStep s = t := by simp [blockAfterStep, h]
    rw [hb]
    obtain ⟨-, ⟨r, -, rfl⟩ | ⟨-, f, -, rfl⟩ | ⟨-, op, -, -, rfl⟩ | hi⟩ := step_cases h
    · exact .inr ⟨rfl, rfl, rfl⟩
    · exact .inr ⟨rfl, rfl, rfl⟩
    · exact .inr ⟨rfl, rfl, rfl⟩
    · exact .inl hi

/-- A step whose instruction completes ends with the tick of the state the body left (R121). -/
theorem blockAfterStep_completed {s w : State} {i : Instr} (hi : s.Fetches i) (hw : exec i (advancePc s) = .next w)
    (hf : w.fault = none) : blockAfterStep s = tick w := by
  simp [blockAfterStep, step_fetches hi hw, endStep_none hf]

/-! ## Over a host operation -/

/-- R48: what a host operation can do to the run state. -/
theorem hostOp_run_cases (o : HostOp) (u : Session) :
    (hostOp o u).1.block.run = u.block.run ∨
    (o = .step ∧ ∃ x, u.block.Fetches (.ldVxK x) ∧ (hostOp o u).1.block.run = .waitingForKey x) ∨
    (∃ k : Fin 16, o = .pressKey k.val ∧ (hostOp o u).1.block.run = .running) := by
  rcases hostOp_block o u with h | ⟨ho, h⟩ | ⟨k, ho, h⟩ | ⟨k, -, h⟩ | ⟨-, h⟩ <;> rw [h]
  · exact .inl rfl
  · rcases blockAfterStep_cases u.block with ⟨i, w, hi, hw, hb⟩ | hkept
    · rw [hb, endStep_run]
      rcases exec_run_cases hw with hrun | ⟨x, rfl, hrun⟩
      · exact .inl hrun
      · exact .inr (.inl ⟨ho, x, hi, hrun⟩)
    · exact .inl hkept.run
  · refine .inr (.inr ⟨k, ho, ?_⟩)
    rcases pressKey_cases k u.block with ⟨hr, hp⟩ | ⟨r, -, hp⟩
    · rw [hp]; exact hr
    · rw [hp]; rfl
  · exact .inl rfl
  · exact .inl rfl

theorem hostOp_beeps_of_ne_step {o : HostOp} (ho : o ≠ .step) (u : Session) :
    (hostOp o u).1.block.beeps = u.block.beeps := by
  rcases hostOp_block o u with h | ⟨hs, -⟩ | ⟨k, -, h⟩ | ⟨k, -, h⟩ | ⟨-, h⟩
  · rw [h]
  · exact absurd hs ho
  · rcases pressKey_cases k u.block with ⟨-, hp⟩ | ⟨r, -, hp⟩ <;> rw [h, hp] <;> rfl
  · rw [h]; rfl
  · rw [h]; rfl

/-- R290: a launched block has what construction gave every field but the memory. -/
theorem launch_block {c : Config} {bytes : List Byte} {u : Session} (h : Session.launch c bytes = .next u) :
    u.block = { State.construct c with mem := u.block.mem } :=
  (loadProgram_keeps (launch_next h).2 (wf_nil c)).1

/-! ## The obligations -/

/-- Settles O55, from what a host operation can do to the run state. -/
theorem onlyFx0aEntersAndPressKeyLeavesTheWait : Obligations.OnlyFx0aEntersAndPressKeyLeavesTheWait := by
  refine ⟨fun o u hrun hne => ?_, fun o u r hwait hne => ?_, fun _ => rfl, fun _ _ _ h => ?_⟩
  · rcases hostOp_run_cases o u with hkept | hstep | ⟨k, -, hr⟩
    · exact absurd (hkept.trans hrun) hne
    · exact hstep
    · exact absurd hr hne
  · rcases hostOp_run_cases o u with hkept | ⟨-, x, hfetch, -⟩ | ⟨k, ho, hr⟩
    · exact absurd (hkept.trans hwait) hne
    · obtain ⟨⟨-, hrun⟩, -⟩ := hfetch
      rw [hrun] at hwait; cases hwait
    · exact ⟨k.val, k.isLt, ho, hr⟩
  · rw [launch_block h]; rfl

/-- Settles O56: a completed step's tick beeps exactly when it finds ST = 1, and nothing else counts a beep. -/
theorem onlyTheTickBeeps : Obligations.OnlyTheTickBeeps := by
  intro o u
  refine ⟨?_, fun hnot => ?_⟩
  · rintro ⟨rfl, i, w, hi, hw, hf, hst⟩
    have hblock : (hostOp .step u).1.block = tick w := blockAfterStep_completed hi hw hf
    have hbody : w.beeps = u.block.beeps := exec_keeps_beeps (s := advancePc u.block) hw
    refine ⟨BitVec.eq_of_toNat_eq ?_, ?_⟩
    · rw [hblock, tick_st_toNat, hst]; rfl
    · rw [hblock, tick_beeps, if_pos hst, hbody]
  · by_cases ho : o = .step
    · subst ho
      rcases blockAfterStep_cases u.block with ⟨i, w, hi, hw, hb⟩ | hkept
      · have hblock : (hostOp .step u).1.block = endStep w := hb
        have hbody : w.beeps = u.block.beeps := exec_keeps_beeps (s := advancePc u.block) hw
        rw [hblock, endStep_beeps, if_neg fun ⟨hf, hst⟩ => hnot ⟨rfl, i, w, hi, hw, hf, hst⟩, hbody]
      · exact hkept.beeps
    · exact hostOp_beeps_of_ne_step ho u

end Sys2Proof.Machine
end

section
/-!
PROOFS. The memory port: a byte read after a byte write, and a word read as its two bytes (spec/20_memory.md R61, R63).
-/

namespace Sys2Proof.Machine

/-! ## A byte read after a byte write (R63) -/

theorem memRead_putByte_reached {s : State} {q a : Nat} (hq : resolve s.cfg q = .ok a) (v : Byte) :
    memRead q (s.putByte a v) = .ok v :=
  memRead_eq_ok.2 ⟨a, hq, by rw [putByte_readByte, if_pos rfl]⟩

theorem memRead_putByte_missed {s : State} {q a : Nat} (hq : resolve s.cfg q ≠ .ok a) (v : Byte) :
    memRead q (s.putByte a v) = memRead q s := by
  cases h : resolve s.cfg q with
  | error f => rw [memRead_eq_error.2 h]; exact memRead_eq_error.2 h
  | ok b =>
    have hba : b ≠ a := fun e => hq (e ▸ h)
    rw [memRead_eq_ok.2 ⟨b, h, rfl⟩]
    exact memRead_eq_ok.2 ⟨b, h, by rw [putByte_readByte, if_neg hba]⟩

theorem bytesKeptOutside_putByte (s : State) (a : Nat) (v : Byte) : BytesKeptOutside a 1 s (s.putByte a v) :=
  fun q hq => by rw [putByte_readByte, if_neg (by omega)]

/-! ## A word read as its two bytes (R61) -/

theorem memReadWord_ok {s : State} {addr : Nat} {hi lo : Byte} (hhi : memRead addr s = .ok hi)
    (hlo : memRead (addr + 1) s = .ok lo) : memReadWord addr s = .ok (wordOfBytes hi lo) := by
  simp [memReadWord, hhi, hlo]

theorem memReadWord_high_error {s : State} {addr : Nat} {f : Fault} (hhi : memRead addr s = .error f) :
    memReadWord addr s = .error f := by
  simp [memReadWord, hhi]

theorem memReadWord_low_error {s : State} {addr : Nat} {hi : Byte} {f : Fault} (hhi : memRead addr s = .ok hi)
    (hlo : memRead (addr + 1) s = .error f) : memReadWord addr s = .error f := by
  simp [memReadWord, hhi, hlo]

/-! ## The obligations -/

/-- Settles O18: the write puts one byte, and a read sees it exactly when its address reaches that byte. -/
theorem readAfterWriteGivesTheByte : Obligations.ReadAfterWriteGivesTheByte := by
  intro s addr a v ha
  exact ⟨s.putByte a v, memWrite_eq_done.2 ⟨a, ha, rfl⟩, onlyMemory_putByte s a v, bytesKeptOutside_putByte s a v,
    fun _ hq => memRead_putByte_reached hq v, fun _ hq => memRead_putByte_missed hq v⟩

/-- Settles O20, one clause for each way the two byte reads can end. -/
theorem wordsAreReadBigEndian : Obligations.WordsAreReadBigEndian := by
  intro s addr
  exact ⟨fun hi lo hhi hlo => ⟨wordOfBytes hi lo, memReadWord_ok hhi hlo, wordOfBytes_toNat hi lo⟩,
    fun _ hhi => memReadWord_high_error hhi, fun _ _ hhi hlo => memReadWord_low_error hhi hlo⟩

end Sys2Proof.Machine
end

section
/-!
PROOFS. Control flow: jumps, CALL, RET and the register skips (spec/41_control_flow.md R140-R147), and the step of a body that
raises before it has written anything.
-/

namespace Sys2Proof.Machine

/-! ## Frames of the updates control flow makes -/

theorem onlyPc_setPc (s : State) (w : Word) : OnlyPc s (s.setPc w) := by
  simp [OnlyPc, RegsKept, BytesKept, StackKept, TimersKept, DisplayKept, KeysKept, ControlKept, EnvKept]

theorem onlyFault_recordFault (s : State) (r : FaultRecord) : OnlyFault s (s.recordFault r) := by
  simp [OnlyFault, CoreKept, RegsKept, BytesKept, StackKept, TimersKept, DisplayKept, KeysKept, EnvKept]

/-- Everything but `pc` and the call stack is unchanged: what CALL and RET keep (R140, R142). -/
def OnlyPcAndStack (s t : State) : Prop :=
  RegsKept [] s t ∧ t.i = s.i ∧ BytesKept s t ∧ TimersKept s t ∧ DisplayKept s t ∧ KeysKept s t ∧ ControlKept s t ∧ EnvKept s t

theorem onlyPcAndStack_setStack_setPc (s : State) (k : Fin 16) (w : Word) (d : Fin 17) (p : Word) :
    OnlyPcAndStack s ((s.setStack k w d).setPc p) := by
  simp [OnlyPcAndStack, RegsKept, BytesKept, TimersKept, DisplayKept, KeysKept, ControlKept, EnvKept]

theorem onlyPcAndStack_setSp_setPc (s : State) (d : Fin 17) (p : Word) : OnlyPcAndStack s ((s.setSp d).setPc p) := by
  simp [OnlyPcAndStack, RegsKept, BytesKept, TimersKept, DisplayKept, KeysKept, ControlKept, EnvKept]

/-! ## A body that raises at once (R260, R261, R263) -/

/-- A step whose body raises `f` before it has written anything advances `pc`, records `f` with the address fetched from, and
does not tick. -/
theorem step_raises_at_once {s : State} {i : Instr} {f : Fault} (hi : s.Fetches i)
    (hraise : exec i (advancePc s) = .next (takeFault f (advancePc s))) :
    ∃ t, step s = .next t ∧ OnlyFault (s.setPc (s.pc + 2)) t ∧ t.fault = some ⟨f, s.pc⟩ := by
  have haddr : takeFault f (advancePc s) = (s.setPc (s.pc + 2)).recordFault ⟨f, s.pc⟩ := by simp
  have hstep : step s = .next ((s.setPc (s.pc + 2)).recordFault ⟨f, s.pc⟩) := by
    rw [step_fetches hi hraise, haddr, endStep_some (recordFault_fault ..)]
  exact ⟨_, hstep, onlyFault_recordFault .., recordFault_fault ..⟩

/-! ## Jump targets (R141, R147) -/

theorem zext16_toNat (nnn : BitVec 12) : (zext16 nnn).toNat = nnn.toNat :=
  BitVec.toNat_setWidth_of_le (by decide)

theorem byteToWord_toNat (b : Byte) : (byteToWord b).toNat = b.toNat :=
  BitVec.toNat_setWidth_of_le (by decide)

/-- R147: the sum of a 12-bit address and a byte fits 16 bits. -/
theorem zext16_add_byteToWord_toNat (nnn : BitVec 12) (b : Byte) :
    (zext16 nnn + byteToWord b).toNat = nnn.toNat + b.toNat := by
  have hnnn := nnn.isLt
  have hb := b.isLt
  rw [BitVec.toNat_add, zext16_toNat, byteToWord_toNat, Nat.mod_eq_of_lt (by omega)]

/-! ## CALL and RET (R140, R142) -/

theorem exec_call_of_lt {s : State} (h : s.sp.val < 16) (nnn : BitVec 12) : exec (.call nnn) s =
    .next ((s.setStack ⟨s.sp.val, h⟩ s.pc ⟨s.sp.val + 1, by omega⟩).setPc (zext16 nnn)) := by
  simp [exec, execCall, push_of_lt h]

theorem exec_call_full {s : State} (h : s.sp.val = 16) (nnn : BitVec 12) :
    exec (.call nnn) s = .next (takeFault (.stackOverflow s.pc) s) := by
  simp [exec, execCall, push_full h]

theorem exec_ret_of_depth {s : State} {k : Fin 16} (h : s.sp.val = k.val + 1) :
    exec .ret s = .next ((s.setSp k.castSucc).setPc (s.getSlot k)) := by
  have hpop : pop s = .ok (s.getSlot k, s.setSp k.castSucc) := by
    simp [pop_of_pos (s := s) (by omega), h, Fin.castSucc, Fin.castAdd, Fin.castLE]
  simp only [exec, execRet, hpop]

theorem exec_ret_empty {s : State} (h : s.sp.val = 0) : exec .ret s = .next (takeFault .stackUnderflow s) := by
  simp only [exec, execRet, pop_empty h]

/-! ## Skips (R128) -/

/-- A skip sets `pc` by its condition, and nothing else. -/
theorem skipIf_only_pc (b : Bool) (s : State) :
    (skipIf b s).pc = (if b = true then s.pc + 2 else s.pc) ∧ OnlyPc s (skipIf b s) := by
  rw [skipIf_eq]
  exact ⟨rfl, onlyPc_setPc ..⟩

/-- The condition of SE. -/
theorem skipIf_beq_only_pc (p q : Byte) (s : State) :
    (skipIf (p == q) s).pc = (if p = q then s.pc + 2 else s.pc) ∧ OnlyPc s (skipIf (p == q) s) := by
  simpa only [beq_iff_eq] using skipIf_only_pc (p == q) s

/-- The condition of SNE. -/
theorem skipIf_bne_only_pc (p q : Byte) (s : State) :
    (skipIf (p != q) s).pc = (if p = q then s.pc else s.pc + 2) ∧ OnlyPc s (skipIf (p != q) s) := by
  simpa only [bne_iff_ne, ite_not] using skipIf_only_pc (p != q) s

/-! ## The obligations -/

/-- Settles O25: each jump is one write of `pc`, whose sum fits 16 bits. -/
theorem jumpsSetPc : Obligations.JumpsSetPc := fun s nnn =>
  ⟨⟨s.setPc (zext16 nnn), rfl, zext16_toNat nnn, onlyPc_setPc ..⟩,
   ⟨s.setPc (zext16 nnn + byteToWord (s.getV 0)), rfl, zext16_add_byteToWord_toNat nnn (s.getV 0), onlyPc_setPc ..⟩⟩

/-- Settles O26: a push that fits writes the slot at the depth, and one that does not raises at once. -/
theorem callPushesTheReturnAddress : Obligations.CallPushesTheReturnAddress := by
  intro s nnn
  refine ⟨fun hlt => ?_, fun hfull hi => ?_⟩
  · refine ⟨_, exec_call_of_lt hlt nnn, zext16_toNat nnn, rfl, fun k => ?_, onlyPcAndStack_setStack_setPc ..⟩
    simp [Fin.ext_iff]
  · exact step_raises_at_once hi (exec_call_full (s := advancePc s) hfull nnn)

/-- Settles O27: a pop that finds an entry moves it to `pc`, and one that does not raises at once. -/
theorem returnPopsIntoPc : Obligations.ReturnPopsIntoPc := by
  intro s
  refine ⟨fun k hk => ?_, fun hempty hi => ?_⟩
  · exact ⟨_, exec_ret_of_depth hk, rfl, rfl, fun _ => rfl, onlyPcAndStack_setSp_setPc ..⟩
  · exact step_raises_at_once hi (exec_ret_empty (s := advancePc s) hempty)

/-- Settles O29: each skip is `skipIf` of its condition. -/
theorem skipsAddTwoToPc : Obligations.SkipsAddTwoToPc := fun s x y kk =>
  ⟨⟨_, rfl, skipIf_beq_only_pc (s.getV x) kk s⟩, ⟨_, rfl, skipIf_bne_only_pc (s.getV x) kk s⟩,
   ⟨_, rfl, skipIf_beq_only_pc (s.getV x) (s.getV y) s⟩, ⟨_, rfl, skipIf_bne_only_pc (s.getV x) (s.getV y) s⟩⟩

end Sys2Proof.Machine
end

section
/-!
PROOFS. The register and ALU instructions: the loads, ADD, SUB and SUBN (spec/42_register_alu.md R160-R167, R169).
-/

namespace Sys2Proof.Machine

/-! ## What the updates of the ALU write and leave -/

theorem setV_getV_same (x : Reg) (b : Byte) (s : State) : (s.setV x b).getV x = b := by rw [setV_getV, if_pos rfl]

theorem onlyRegs_setV (x : Reg) (b : Byte) (s : State) : OnlyRegs [x] s (s.setV x b) := by
  have hregs : RegsKept [x] s (s.setV x b) := fun r hr => by rw [setV_getV, if_neg (List.ne_of_not_mem_cons hr)]
  refine ⟨hregs, ?_⟩
  simp [BytesKept, CoreKept, StackKept, TimersKept, DisplayKept, KeysKept, EnvKept]

theorem onlyRegs_writeFlagged (x : Reg) (flag result : Byte) (s : State) :
    OnlyRegs [x, VF] s (writeFlagged x flag result s) := by
  have hregs : RegsKept [x, VF] s (writeFlagged x flag result s) := fun r hr => by
    obtain ⟨hx, hvf⟩ : r ≠ x ∧ r ≠ VF := by simpa using hr
    rw [writeFlagged_getV]
    split <;> simp [hx, hvf]
  refine ⟨hregs, ?_⟩
  simp [BytesKept, CoreKept, StackKept, TimersKept, DisplayKept, KeysKept, EnvKept]

/-! ## What the two writes of a flag instruction leave (R177, R179) -/

theorem writeFlagged_getV_destination {x : Reg} (hx : x ≠ VF) (flag result : Byte) (s : State) :
    (writeFlagged x flag result s).getV x = result := by
  rw [writeFlagged_getV]
  split <;> simp [hx]

theorem writeFlagged_getV_VF {x : Reg} (hx : x ≠ VF) (flag result : Byte) (s : State) :
    (writeFlagged x flag result s).getV VF = flag := by
  rw [writeFlagged_getV]
  split <;> simp [hx.symm]

/-- R179: with the flag written first, the result stays in a destination VF. -/
theorem writeFlagged_VF_getV {s : State} (h : s.cfg.vfDestOrder = .flagThenResult) (flag result : Byte) :
    (writeFlagged VF flag result s).getV VF = result := by
  simp [writeFlagged_getV, h]

theorem flagWritten_writeFlagged {flag result : Byte} {f r : Nat} (hf : flag.toNat = f) (hr : result.toNat = r) (x : Reg)
    (s : State) : FlagWritten x f r s (writeFlagged x flag result s) := by
  refine ⟨fun hx => ⟨?_, ?_⟩, fun hx hord => ?_, onlyRegs_writeFlagged ..⟩
  · rw [writeFlagged_getV_destination hx, hr]
  · rw [writeFlagged_getV_VF hx, hf]
  · rw [hx, writeFlagged_VF_getV hord, hr]

/-! ## Flags and results, as numbers (R166, R167, R176) -/

theorem bit01_toNat (b : Bool) : (bit01 b).toNat = if b = true then 1 else 0 := by cases b <;> rfl

theorem carryFlag_toNat (p q : Byte) : (carryFlag p q).toNat = if p.toNat + q.toNat > 255 then 1 else 0 := by
  simp only [carryFlag, bit01_toNat, decide_eq_true_eq]

theorem notBorrowFlag_toNat (p q : Byte) : (notBorrowFlag p q).toNat = if p.toNat > q.toNat then 1 else 0 := by
  simp only [notBorrowFlag, bit01_toNat, decide_eq_true_eq]

theorem addByte_toNat (p q : Byte) : (addByte p q).toNat = (p.toNat + q.toNat) % 256 := BitVec.toNat_ofNat ..

theorem subByte_toNat (p q : Byte) : (subByte p q).toNat = (((p.toNat : Int) - (q.toNat : Int)) % 256).toNat :=
  BitVec.toNat_ofInt ..

/-! ## The obligations -/

/-- Settles O31: each of the six is one write of Vx. -/
theorem loadsAndBitwiseWriteOnlyVx : Obligations.LoadsAndBitwiseWriteOnlyVx := by
  intro s x y kk
  have hwrite (b : Byte) : (s.setV x b).getV x = b ∧ OnlyRegs [x] s (s.setV x b) :=
    ⟨setV_getV_same .., onlyRegs_setV ..⟩
  have hsum : ((s.setV x (addByte (s.getV x) kk)).getV x).toNat = ((s.getV x).toNat + kk.toNat) % 256 := by
    rw [setV_getV_same, addByte_toNat]
  exact ⟨⟨_, rfl, hwrite kk⟩, ⟨_, rfl, hsum, onlyRegs_setV ..⟩, ⟨_, rfl, hwrite (s.getV y)⟩,
    ⟨_, rfl, hwrite (s.getV x ||| s.getV y)⟩, ⟨_, rfl, hwrite (s.getV x &&& s.getV y)⟩,
    ⟨_, rfl, hwrite (s.getV x ^^^ s.getV y)⟩⟩

/-- Settles O32: ADD is the two writes of the carry and the sum. -/
theorem addLeavesSumAndCarry : Obligations.AddLeavesSumAndCarry := fun s x y =>
  ⟨_, rfl, flagWritten_writeFlagged (carryFlag_toNat (s.getV x) (s.getV y)) (addByte_toNat (s.getV x) (s.getV y)) x s⟩

/-- Settles O33: SUB is the two writes of the not-borrow flag and the difference, and SUBN the same with its operands
exchanged. -/
theorem subtractsLeaveDifferenceAndNotBorrow : Obligations.SubtractsLeaveDifferenceAndNotBorrow := fun s x y =>
  have hwritten (p q : Byte) := flagWritten_writeFlagged (notBorrowFlag_toNat p q) (subByte_toNat p q) x s
  ⟨⟨_, rfl, hwritten (s.getV x) (s.getV y)⟩, ⟨_, rfl, hwritten (s.getV y) (s.getV x)⟩⟩

end Sys2Proof.Machine
end

section
/-!
PROOFS. The memory loops of FX33, FX55 and FX65, over the whole body (spec/43_index_memory.md R191, R194-R196).
-/

namespace Sys2Proof.Machine

/-! ## Taking the fault of a body -/

theorem raised_takeFault (f : Fault) (s : State) : Raised f (takeFault f s) := ⟨s.pc - 2, rfl⟩

/-- Taking a fault after some stores leaves all that the stores left. -/
theorem onlyMemory_takeFault {s t : State} (h : OnlyMemory s t) (f : Fault) :
    RegsKept [] s (takeFault f t) ∧ (takeFault f t).i = s.i ∧ CoreKept s (takeFault f t) := by
  obtain ⟨hregs, hi, hcore, -⟩ := h
  exact ⟨hregs, hi, hcore⟩

/-! ## A body that is a run of stores (R191, R194, R195) -/

theorem storeCells_outcome_completed {s : State} (hc : s.cfg.wf = true) (val : Nat → Byte) {n : Nat} (hn : n ≤ 16)
    (h : ∀ k < n, ∃ a, resolve s.cfg (effAddr s k) = .ok a) :
    ∃ t, (Body.forEach storeCell (cellsBelow n val) s).outcome = .next t ∧ BytesStored n val s t ∧ OnlyMemory s t := by
  obtain ⟨t, ht, hmem, hstored⟩ := storeCells_done hc val n hn h
  exact ⟨t, by rw [ht, outcome_done], hstored, hmem⟩

theorem storeCells_outcome_raised {s : State} (hc : s.cfg.wf = true) (val : Nat → Byte) {n k : Nat} (hn : n ≤ 16)
    (hk : k < n) {f : Fault} (h : ∀ j < k, ∃ a, resolve s.cfg (effAddr s j) = .ok a)
    (hf : resolve s.cfg (effAddr s k) = .error f) :
    ∃ t, (Body.forEach storeCell (cellsBelow n val) s).outcome = .next t ∧ BytesStored k val s t ∧ Raised f t ∧
      RegsKept [] s t ∧ t.i = s.i ∧ CoreKept s t := by
  obtain ⟨t, ht, hmem, hstored⟩ := storeCells_raised hc val hn hk h hf
  exact ⟨takeFault f t, by rw [ht, outcome_raised], hstored, raised_takeFault f t, onlyMemory_takeFault hmem f⟩

theorem exec_ldB_eq_storeCells {s : State} {x : Reg} {digit : Nat → Byte} (h0 : (digit 0).toNat = (s.getV x).toNat / 100)
    (h1 : (digit 1).toNat = (s.getV x).toNat / 10 % 10) (h2 : (digit 2).toNat = (s.getV x).toNat % 10) :
    exec (.ldB x) s = (Body.forEach storeCell (cellsBelow 3 digit) s).outcome := by
  rw [← bcdDigits_eq (s.getV x) digit h0 h1 h2]
  rfl

theorem exec_storeRegs_eq_storeCells {s : State} {x : Reg} {val : Nat → Byte}
    (h : ∀ r : Reg, r ≤ x → val r.val = s.getV r) :
    exec (.storeRegs x) s = (Body.forEach storeCell (cellsBelow (x.val + 1) val) s).outcome := by
  rw [← regsUpTo_map x s val h, ← forEach_storeReg]
  rfl

/-! ## A body that is a run of loads (R191, R196) -/

/-- The loads' equation of states, as the frame the statements speak of. -/
theorem regsOnly_frame {s t : State} (h : RegsOnly s t) :
    t.i = s.i ∧ BytesKept s t ∧ CoreKept s t ∧ t.fault = s.fault := by
  rw [h]
  refine ⟨rfl, fun _ => rfl, ?_, rfl⟩
  exact ⟨rfl, ⟨rfl, fun _ => rfl⟩, ⟨rfl, rfl, rfl⟩, ⟨rfl, fun _ _ => rfl⟩, fun _ => rfl, rfl, rfl, rfl⟩

/-- Taking a fault after some loads leaves all that the loads left. -/
theorem regsOnly_takeFault_frame {s t : State} (h : RegsOnly s t) (f : Fault) :
    (takeFault f t).i = s.i ∧ BytesKept s (takeFault f t) ∧ CoreKept s (takeFault f t) := by
  obtain ⟨hi, hbytes, hcore, -⟩ := regsOnly_frame h
  exact ⟨hi, hbytes, hcore⟩

/-! ## The obligations -/

/-- Settles O39: LD B is a run of three stores, of the digits. -/
theorem bcdStoresThreeDigits : Obligations.BcdStoresThreeDigits := by
  intro s x digit hc h0 h1 h2
  rw [exec_ldB_eq_storeCells h0 h1 h2]
  exact ⟨fun hreach => storeCells_outcome_completed hc digit (by omega) hreach,
    fun k hk f hbefore hf => storeCells_outcome_raised hc digit (by omega) hk hbefore hf⟩

/-- Settles O40: LD [I], Vx is a run of `x + 1` stores, of the registers as they are at its start. -/
theorem storeRegistersWritesV0ToVx : Obligations.StoreRegistersWritesV0ToVx := by
  intro s x val hc hval
  rw [exec_storeRegs_eq_storeCells hval]
  refine ⟨fun hreach => ?_, fun k hk f hbefore hf => ?_⟩
  · exact storeCells_outcome_completed hc val x.isLt fun k hk => hreach k (Nat.le_of_lt_succ hk)
  · exact storeCells_outcome_raised hc val x.isLt (Nat.lt_succ_of_le hk) hbefore hf

/-- Settles O41, from the loop of loads with every byte in reach and with the byte at `I + k` out of it. -/
theorem loadRegistersReadsV0ToVx : Obligations.LoadRegistersReadsV0ToVx := by
  intro s x
  have hexec : exec (.loadRegs x) s = (Body.forEach loadReg ((List.finRange 16).take (x.val + 1)) s).outcome := rfl
  rw [hexec]
  refine ⟨fun hreach => ?_, fun k hk f hbefore hf => ?_⟩
  · obtain ⟨t, ht, hregs, hloaded, hkept⟩ :=
      loads_done (s := s) (x.val + 1) x.isLt fun k hk => hreach k (Nat.le_of_lt_succ hk)
    exact ⟨t, by rw [ht, outcome_done], fun r hr => hloaded r (Nat.lt_succ_of_le hr), hkept, regsOnly_frame hregs⟩
  · obtain ⟨t, ht, hregs, hloaded, hkept⟩ := loads_raised x.isLt (Nat.lt_succ_of_le hk) hbefore hf
    exact ⟨takeFault f t, by rw [ht, outcome_raised], hloaded, hkept, raised_takeFault f t,
      regsOnly_takeFault_frame hregs f⟩

end Sys2Proof.Machine
end

section
/-!
PROOFS. The display: CLS (spec/44_display.md R215).
-/

namespace Sys2Proof.Machine

/-! ## The frame of an update of the screen -/

/-- Everything but the framebuffer and `redraw` is unchanged: what CLS keeps (R215). -/
def OnlyDisplay (s t : State) : Prop :=
  RegsKept [] s t ∧ t.i = s.i ∧ t.pc = s.pc ∧ BytesKept s t ∧ StackKept s t ∧ TimersKept s t ∧ KeysKept s t ∧
    ControlKept s t ∧ EnvKept s t

theorem onlyDisplay_clearAll_setRedraw (s : State) (b : Bool) : OnlyDisplay s (s.clearAll.setRedraw b) := by
  simp [OnlyDisplay, RegsKept, BytesKept, StackKept, TimersKept, KeysKept, ControlKept, EnvKept]

/-! ## CLS (R215) -/

theorem exec_cls (s : State) : exec .cls s = .next (s.clearAll.setRedraw true) := rfl

/-! ## The obligations -/

/-- Settles O42: CLS is ClearAll and then `redraw <- true`, whatever the grid held. -/
theorem clearScreenClearsEveryPixel : Obligations.ClearScreenClearsEveryPixel := by
  intro s
  have hclear : ∀ px py, (s.clearAll.setRedraw true).getPixel px py = false := fun px py => by
    rw [setRedraw_getPixel, clearAll_getPixel]
  exact ⟨_, exec_cls s, hclear, setRedraw_redraw .., onlyDisplay_clearAll_setRedraw s true⟩

end Sys2Proof.Machine
end

section
/-!
PROOFS. Decoding and encoding: the round trips, the one row of every word, and the illegal words (spec/30_encoding.md R90-R99).
-/

namespace Sys2Proof

/-! ## The formats of a word's own fields (R91, R97, R98) -/

theorem formatA_fields {op : Word} {f : BitVec 4} (hf : opFamily op = f.toNat) : formatA f (opNNN op) = op := by
  rw [opFamily_eq] at hf
  apply BitVec.eq_of_toNat_eq; rw [formatA_toNat, opNNN_toNat]; omega

theorem formatXK_fields {op : Word} {f : BitVec 4} {kk : Byte} (hf : opFamily op = f.toNat)
    (hk : (opKK op).toNat = kk.toNat) : formatXK f (opX op) kk = op := by
  rw [opFamily_eq] at hf; rw [opKK_toNat] at hk
  apply BitVec.eq_of_toNat_eq; rw [formatXK_toNat, opX_val]; omega

theorem formatXY_fields {op : Word} {f n : BitVec 4} (hf : opFamily op = f.toNat) (hn : opN op = n.toNat) :
    formatXY f (opX op) (opY op) n = op := by
  rw [opFamily_eq] at hf; rw [opN_eq] at hn
  apply BitVec.eq_of_toNat_eq; rw [formatXY_toNat, opX_val, opY_val]; omega

theorem formatXY_low_cleared (f : BitVec 4) (x y : Reg) (n : BitVec 4) :
    formatXY f x y n &&& ~~~(0x000F : Word) = formatXY f x y 0 := by
  apply BitVec.eq_of_getLsbD_eq; intro i hi
  simp only [formatXY, BitVec.getLsbD_and, BitVec.getLsbD_not, BitVec.getLsbD_append]
  rcases i with _|_|_|_|_|_|_|_|_|_|_|_|_|_|_|_|i <;> simp

theorem formatXY_y_cleared (f : BitVec 4) (x y : Reg) (n : BitVec 4) :
    formatXY f x y n &&& ~~~(0x00F0 : Word) = formatXY f x 0 n := by
  apply BitVec.eq_of_getLsbD_eq; intro i hi
  simp only [formatXY, BitVec.getLsbD_and, BitVec.getLsbD_not, BitVec.getLsbD_append]
  rcases i with _|_|_|_|_|_|_|_|_|_|_|_|_|_|_|_|i <;> simp [regField]

/-- R97: what 5XYN and 9XYN encode is the word less its low nibble. -/
theorem formatXY_of_ignored_low {op : Word} {f : BitVec 4} (hf : opFamily op = f.toNat) :
    formatXY f (opX op) (opY op) 0 = op &&& ~~~(0x000F : Word) := by
  have hn : opN op = (BitVec.ofNat 4 (opN op)).toNat := by rw [opN_eq]; simp
  rw [← formatXY_low_cleared f _ _ (BitVec.ofNat 4 (opN op)), formatXY_fields hf hn]

/-- R98: what 8XY6 and 8XYE encode is the word less its y nibble. -/
theorem formatXY_of_ignored_y {op : Word} {f n : BitVec 4} (hf : opFamily op = f.toNat) (hn : opN op = n.toNat) :
    formatXY f (opX op) 0 n = op &&& ~~~(0x00F0 : Word) := by
  rw [← formatXY_y_cleared f _ (opY op), formatXY_fields hf hn]

/-! ## Decoding what was encoded -/

theorem decodeWord_encode {i : Instr} (hi : i.wf = true) : decodeWord (encode i) = .ok i := by
  cases i
  case cls | ret => rfl
  case drw x y n =>
    have hn : n ≤ 15 := by simpa [Instr.wf] using hi
    simp [encode, decodeWord, Nat.mod_eq_of_lt (show n < 16 by omega)]
  case ldReg | orReg | andReg | xorReg | addReg | subReg | shr | subn | shl => simp [encode, decodeWord, decodeFamily8]
  case skp | sknp => simp [encode, decodeWord, decodeFamilyE]
  case ldVxDT | ldVxK | ldDT | ldST | addI | ldF | ldB | storeRegs | loadRegs => simp [encode, decodeWord, decodeFamilyF]
  all_goals simp [encode, decodeWord]

/-! ## Encoding what was decoded -/

/-- The word `op` is one of the well-formed instruction `i`, up to the bits R97 and R98 ignore. -/
def EncodesTo (op : Word) (i : Instr) : Prop := i.wf = true ∧ encode i = op &&& ~~~ignoredBits i

/-- An instruction that ignores no bit encodes to the word itself. -/
theorem encodesTo_of_eq {op : Word} {i : Instr} (hw : i.wf = true) (hb : ignoredBits i = 0) (he : encode i = op) :
    EncodesTo op i := ⟨hw, by rw [hb, he]; exact BitVec.and_allOnes.symm⟩

theorem decodeFamily0_ok {op : Word} {i : Instr} (h : decodeFamily0 op = .ok i) : EncodesTo op i := by
  unfold decodeFamily0 at h
  split at h
  · next hop => cases h; exact encodesTo_of_eq rfl rfl hop.symm
  · split at h
    · next hop => cases h; exact encodesTo_of_eq rfl rfl hop.symm
    · cases h

theorem decodeFamily8_ok {op : Word} {i : Instr} (hf : opFamily op = 0x8) (h : decodeFamily8 op = .ok i) :
    EncodesTo op i := by
  unfold decodeFamily8 at h
  split at h
  case h_7 hn | h_9 hn => cases h; exact ⟨rfl, formatXY_of_ignored_y hf hn⟩
  case h_10 => cases h
  all_goals
    next hn => cases h; exact encodesTo_of_eq rfl rfl (formatXY_fields hf hn)

theorem decodeFamilyE_ok {op : Word} {i : Instr} (hf : opFamily op = 0xE) (h : decodeFamilyE op = .ok i) :
    EncodesTo op i := by
  unfold decodeFamilyE at h
  split at h
  case h_3 => cases h
  all_goals
    next hk => cases h; exact encodesTo_of_eq rfl rfl (formatXK_fields hf hk)

theorem decodeFamilyF_ok {op : Word} {i : Instr} (hf : opFamily op = 0xF) (h : decodeFamilyF op = .ok i) :
    EncodesTo op i := by
  unfold decodeFamilyF at h
  split at h
  case h_10 => cases h
  all_goals
    next hk => cases h; exact encodesTo_of_eq rfl rfl (formatXK_fields hf hk)

theorem decodeWord_ok {op : Word} {i : Instr} (h : decodeWord op = .ok i) : EncodesTo op i := by
  unfold decodeWord at h
  split at h
  case h_1 => exact decodeFamily0_ok h
  case h_9 hf => exact decodeFamily8_ok hf h
  case h_15 hf => exact decodeFamilyE_ok hf h
  case h_16 hf => exact decodeFamilyF_ok hf h
  case h_17 => cases h
  case h_6 hf | h_10 hf => cases h; exact ⟨rfl, formatXY_of_ignored_low hf⟩
  case h_14 hf =>
    cases h
    have hn : opN op < 16 := by rw [opN_eq]; omega
    refine encodesTo_of_eq (by simp [Instr.wf]; omega) rfl (formatXY_fields hf ?_)
    simp [Nat.mod_eq_of_lt hn]
  case h_2 hf | h_3 hf | h_11 hf | h_12 hf => cases h; exact encodesTo_of_eq rfl rfl (formatA_fields hf)
  all_goals
    next hf => cases h; exact encodesTo_of_eq rfl rfl (formatXK_fields hf rfl)

/-! ## The rows a word selects (R95, R99) -/

/-- Every instruction's encoding selects its own row, which is in the map. -/
theorem encode_selects_rowOf (i : Instr) : (rowOf i).selects (encode i) = true ∧ rowOf i ∈ opcodeMap :=
  match i with
  | .cls => Laws.EncodeRow.cls
  | .ret => Laws.EncodeRow.ret
  | .jp nnn => Laws.EncodeRow.jp nnn
  | .call nnn => Laws.EncodeRow.call nnn
  | .seImm x kk => Laws.EncodeRow.seImm x kk
  | .sneImm x kk => Laws.EncodeRow.sneImm x kk
  | .seReg x y => Laws.EncodeRow.seReg x y
  | .ldImm x kk => Laws.EncodeRow.ldImm x kk
  | .addImm x kk => Laws.EncodeRow.addImm x kk
  | .ldReg x y => Laws.EncodeRow.ldReg x y
  | .orReg x y => Laws.EncodeRow.orReg x y
  | .andReg x y => Laws.EncodeRow.andReg x y
  | .xorReg x y => Laws.EncodeRow.xorReg x y
  | .addReg x y => Laws.EncodeRow.addReg x y
  | .subReg x y => Laws.EncodeRow.subReg x y
  | .shr x => Laws.EncodeRow.shr x
  | .subn x y => Laws.EncodeRow.subn x y
  | .shl x => Laws.EncodeRow.shl x
  | .sneReg x y => Laws.EncodeRow.sneReg x y
  | .ldI nnn => Laws.EncodeRow.ldI nnn
  | .jpV0 nnn => Laws.EncodeRow.jpV0 nnn
  | .rnd x kk => Laws.EncodeRow.rnd x kk
  | .drw x y n => Laws.EncodeRow.drw x y n
  | .skp x => Laws.EncodeRow.skp x
  | .sknp x => Laws.EncodeRow.sknp x
  | .ldVxDT x => Laws.EncodeRow.ldVxDT x
  | .ldVxK x => Laws.EncodeRow.ldVxK x
  | .ldDT x => Laws.EncodeRow.ldDT x
  | .ldST x => Laws.EncodeRow.ldST x
  | .addI x => Laws.EncodeRow.addI x
  | .ldF x => Laws.EncodeRow.ldF x
  | .ldB x => Laws.EncodeRow.ldB x
  | .storeRegs x => Laws.EncodeRow.storeRegs x
  | .loadRegs x => Laws.EncodeRow.loadRegs x

/-- No row looks at a bit its instruction ignores. -/
theorem ignoredBits_outside_mask (i : Instr) : ~~~ignoredBits i &&& (rowOf i).mask = (rowOf i).mask := by
  cases i <;> (simp only [ignoredBits, rowOf]; decide)

/-- A word selects the row of what it decodes to. -/
theorem decodeWord_selects {op : Word} {i : Instr} (h : decodeWord op = .ok i) : (rowOf i).selects op = true := by
  obtain ⟨-, he⟩ := decodeWord_ok h
  have hself := (encode_selects_rowOf i).1
  rw [OpcodeRow.selects, he, BitVec.and_assoc, ignoredBits_outside_mask] at hself
  exact hself

/-- A word that selects a row decodes to an instruction. The rows of one mask stand together in the map: two of mask FFFF, seven
of F000, nine of F00F, five of F000 and eleven of F0FF. -/
theorem decodeWord_of_selects {op : Word} {r : OpcodeRow} (hr : r ∈ opcodeMap) (h : r.selects op = true) :
    ∃ i, decodeWord op = .ok i := by
  simp only [opcodeMap, List.cons_append, List.nil_append, List.mem_cons, List.not_mem_nil, or_false] at hr
  have word {m : String} {b : Word} (h : OpcodeRow.selects ⟨b, 0xFFFF, m⟩ op = true) := (selects_FFFF m b op).1 h
  iterate 2
    rcases hr with rfl | hr
    · rw [word h]; exact ⟨_, rfl⟩
  iterate 7
    rcases hr with rfl | hr
    · have hf := (selects_F000 _ _ op (by decide)).1 h
      simp [decodeWord, opFamily_eq, hf]
  iterate 9
    rcases hr with rfl | hr
    · obtain ⟨hf, hn⟩ := (selects_F00F _ _ op (by decide)).1 h
      simp [decodeWord, decodeFamily8, opFamily_eq, opN_eq, hf, hn]
  iterate 5
    rcases hr with rfl | hr
    · have hf := (selects_F000 _ _ op (by decide)).1 h
      simp [decodeWord, opFamily_eq, hf]
  iterate 11
    rcases hr with rfl | hr
    · obtain ⟨hf, hk⟩ := (selects_F0FF _ _ op (by decide)).1 h
      simp [decodeWord, decodeFamilyE, decodeFamilyF, opFamily_eq, opKK_toNat, hf, hk]

/-- Two rows differ in a bit both look at. -/
theorem rows_disjoint : ∀ r ∈ opcodeMap, ∀ q ∈ opcodeMap, r.bits &&& q.mask = q.bits &&& r.mask → r = q := by
  decide

theorem selects_unique {op : Word} {r q : OpcodeRow} (hr : r ∈ opcodeMap) (hq : q ∈ opcodeMap)
    (h : r.selects op = true) (g : q.selects op = true) : r = q := by
  refine rows_disjoint r hr q hq ?_
  simp only [OpcodeRow.selects, beq_iff_eq] at h g
  rw [← h, ← g, BitVec.and_assoc, BitVec.and_assoc, BitVec.and_comm r.mask]

/-! ## The illegal words (R96) -/

theorem decodeFamily0_error_iff {op : Word} :
    decodeFamily0 op = .error (.unknownOpcode op) ↔ op ≠ 0x00E0 ∧ op ≠ 0x00EE := by
  unfold decodeFamily0
  split
  · next h => simp [h]
  · split
    · next h => simp [h]
    · next h h' => simpa using ⟨h, h'⟩

theorem decodeFamily8_error_iff {op : Word} :
    decodeFamily8 op = .error (.unknownOpcode op) ↔ op.toNat % 16 ∈ [0x8, 0x9, 0xA, 0xB, 0xC, 0xD, 0xF] := by
  unfold decodeFamily8
  rw [← opN_eq]
  have hn : opN op < 16 := by rw [opN_eq]; omega
  split
  case h_10 => simp only [imp_false] at *; simp; omega
  all_goals next h => simp [h]

theorem decodeFamilyE_error_iff {op : Word} :
    decodeFamilyE op = .error (.unknownOpcode op) ↔ op.toNat % 256 ∉ [0x9E, 0xA1] := by
  unfold decodeFamilyE
  rw [← opKK_toNat]
  split
  case h_3 h h' => simpa using ⟨h, h'⟩
  all_goals next h => simp [h]

theorem decodeFamilyF_error_iff {op : Word} : decodeFamilyF op = .error (.unknownOpcode op) ↔
    op.toNat % 256 ∉ [0x07, 0x0A, 0x15, 0x18, 0x1E, 0x29, 0x33, 0x55, 0x65] := by
  unfold decodeFamilyF
  rw [← opKK_toNat]
  split
  case h_10 => simp only [imp_false] at *; simp; omega
  all_goals next h => simp [h]

/-! ## The obligations -/

/-- Settles O1: the decoder inverts the encoder on every well-formed instruction, and two bytes are the word they split. -/
theorem decodeOfEncodeIsIdentity : Obligations.DecodeOfEncodeIsIdentity := by
  intro i rest hi
  simp only [encodeBytes, List.cons_append, List.nil_append, decode, wordOfBytes_split, decodeWord_encode hi]

/-- Settles O2: what a word decodes to encodes to it and gives its row, the rows are disjoint, and a word that selects a row
decodes. -/
theorem everyWordDecodesToItsOneRow : Obligations.EveryWordDecodesToItsOneRow := by
  intro op
  cases h : decodeWord op with
  | ok i =>
    obtain ⟨hwf, henc⟩ := decodeWord_ok h
    have hrow := (encode_selects_rowOf i).2
    have hsel := decodeWord_selects h
    exact .inl ⟨i, rfl, hwf, henc, hrow, fun r hr => ⟨fun hs => selects_unique hr hrow hs hsel, fun e => e ▸ hsel⟩⟩
  | error e =>
    refine .inr ⟨by rw [Machine.decodeWord_error h], fun r hr => Bool.eq_false_iff.2 fun hs => ?_⟩
    obtain ⟨i, hi⟩ := decodeWord_of_selects hr hs
    rw [h] at hi; cases hi

/-- Settles O3, from the bit in which each two rows differ. -/
theorem noTwoOpcodeRowsSelectOneWord : Obligations.NoTwoOpcodeRowsSelectOneWord :=
  ⟨rfl, fun _ _ hr _ hq h g => selects_unique hr hq h g⟩

/-- Settles O4, family by family: four families have illegal words, and the other twelve have none. -/
theorem illegalWordsAreExactlyTheListed : Obligations.IllegalWordsAreExactlyTheListed := by
  intro op
  have hf := opFamily_eq op
  unfold decodeWord
  split
  case h_1 h => rw [decodeFamily0_error_iff, ← hf, h]; simp
  case h_9 h => rw [decodeFamily8_error_iff, ← hf, h]; simp
  case h_15 h => rw [decodeFamilyE_error_iff, ← hf, h]; simp
  case h_16 h => rw [decodeFamilyF_error_iff, ← hf, h]; simp
  case h_17 => have := op.isLt; simp only [imp_false] at *; omega
  all_goals next h => rw [← hf, h]; simp

/-- Settles O5, by running the decoder on each word. -/
theorem printedWordsDecode : Obligations.PrintedWordsDecode := by
  unfold Obligations.PrintedWordsDecode
  decide

end Sys2Proof
end

section
/-!
PROOFS. The state invariant over steps, host operations and sessions, and the end of a run that has faulted
(spec/40_execution_cycle.md R120, R134, spec/60_exceptions.md R267, spec/70_reset_and_hazards.md R294).
-/

namespace Sys2Proof.Machine

/-! ## What the invariant looks at -/

/-- R267: a faulted block is not waiting. -/
theorem State.Inv.running {s : State} (h : s.Inv) : s.fault.isSome = true → s.run = .running := by
  obtain ⟨-, -, hrun⟩ := h
  exact hrun

/-- A change that leaves the configuration and the memory alone keeps the invariant, if it does not leave a faulted block
waiting. -/
theorem State.Inv.of_kept {s t : State} (h : s.Inv) (hcfg : t.cfg = s.cfg) (hmem : t.mem = s.mem)
    (hrun : t.fault.isSome = true → t.run = .running) : t.Inv := by
  obtain ⟨hc, hm, -⟩ := h
  exact ⟨by rw [hcfg]; exact hc, by rw [hcfg, hmem]; exact hm, hrun⟩

/-! ## The end of a step -/

theorem endStep_cfg (u : State) : (endStep u).cfg = u.cfg := by unfold endStep; split <;> simp
theorem endStep_mem (u : State) : (endStep u).mem = u.mem := by unfold endStep; split <;> simp
theorem endStep_fault (u : State) : (endStep u).fault = u.fault := by unfold endStep; split <;> simp

/-- An instruction that a running block with no fault executes does not leave it both faulted and waiting. -/
theorem exec_fault_running {i : Instr} {s u : State} (hs : s.Ready) (hu : exec i s = .next u)
    (hf : u.fault.isSome = true) : u.run = .running := by
  rcases exec_cases hu with hkept | ⟨f, p, rfl, hp⟩
  · rw [hkept, hs.1] at hf; cases hf
  · have hrun : p.run = s.run := by rw [hp]
    exact hrun.trans hs.2

theorem step_keeps_inv {s t : State} (h : s.Inv) (ht : step s = .next t) : t.Inv := by
  obtain ⟨-, ⟨r, -, rfl⟩ | ⟨hr, f, -, rfl⟩ | ⟨hr, op, -, -, rfl⟩ | ⟨i, u, ⟨hready, -⟩, hu, rfl⟩⟩ := step_cases ht
  · exact h
  · exact h.of_kept rfl rfl fun _ => hr
  · exact h.of_kept rfl rfl fun _ => hr
  · obtain ⟨hc, hm, -⟩ := h
    obtain ⟨hcfg, hwf⟩ := exec_keeps_memory (s := advancePc s) hu hc hm
    have hrun := exec_fault_running (s := advancePc s) hready hu
    have hu' : u.Inv := ⟨by rw [hcfg]; exact hc, by rw [hcfg]; exact hwf, hrun⟩
    exact hu'.of_kept (endStep_cfg u) (endStep_mem u) (by rw [endStep_fault, endStep_run]; exact hrun)

/-! ## Host operations and sessions -/

/-- The block after a step is as it was, or what the step answers. -/
theorem blockAfterStep_next (s : State) : blockAfterStep s = s ∨ step s = .next (blockAfterStep s) := by
  cases h : step s with
  | next t => exact .inr (by simp [blockAfterStep, h])
  | fault f => exact .inl (by simp [blockAfterStep, h])
  | refused r => exact .inl (by simp [blockAfterStep, h])

theorem pressKey_keeps_inv {s : State} (h : s.Inv) (k : Fin 16) : (pressKey k s).Inv := by
  rcases pressKey_cases k s with ⟨hr, hp⟩ | ⟨r, -, hp⟩ <;> rw [hp]
  · exact h.of_kept rfl rfl fun _ => hr
  · exact h.of_kept rfl rfl fun _ => rfl

theorem hostOp_keeps_inv (o : HostOp) {u : Session} (h : u.block.Inv) : (hostOp o u).1.block.Inv := by
  rcases hostOp_block o u with hb | ⟨-, hb⟩ | ⟨k, -, hb⟩ | ⟨k, -, hb⟩ | ⟨-, hb⟩ <;> rw [hb]
  · exact h
  · rcases blockAfterStep_next u.block with he | hs
    · rw [he]; exact h
    · exact step_keeps_inv h hs
  · exact pressKey_keeps_inv h k
  · exact h.of_kept rfl rfl h.running
  · exact h.of_kept rfl rfl h.running

/-- What every host operation keeps holds at the end of every run. -/
theorem hostRun_keeps {P : Session → Prop} (hP : ∀ o u, P u → P (hostOp o u).1) (ops : List HostOp) {u : Session}
    (h : P u) : P (hostRun ops u) := by
  induction ops generalizing u with
  | nil => exact h
  | cons o ops ih => exact ih (hP o u h)

theorem construct_inv {c : Config} (hc : c.wf = true) : (State.construct c).Inv :=
  ⟨hc, wf_nil c, fun _ => rfl⟩

theorem launch_inv {c : Config} {bytes : List Byte} {u : Session} (hc : c.wf = true)
    (h : Session.launch c bytes = .next u) : u.block.Inv := by
  obtain ⟨he, hwf⟩ := loadProgram_keeps (launch_next h).2 (wf_nil c)
  rw [he]
  exact ⟨hc, hwf, fun _ => rfl⟩

/-! ## A recorded fault (R267) -/

/-- The key latch and `redraw` aside, nothing has changed. -/
def OnlyKeysAndRedraw (s t : State) : Prop := t = { s with keys := t.keys, redraw := t.redraw }

theorem OnlyKeysAndRedraw.trans {s t u : State} (h : OnlyKeysAndRedraw s t) (g : OnlyKeysAndRedraw t u) :
    OnlyKeysAndRedraw s u := by rw [OnlyKeysAndRedraw, g, h]

/-- R129, R267: a host operation on a faulted block that is not waiting changes the key latch and `redraw` at most. -/
theorem hostOp_faulted (o : HostOp) {u : Session} {r : FaultRecord} (hf : u.block.fault = some r)
    (hr : u.block.run = .running) : OnlyKeysAndRedraw u.block (hostOp o u).1.block := by
  rcases hostOp_block o u with hb | ⟨-, hb⟩ | ⟨k, -, hb⟩ | ⟨k, -, hb⟩ | ⟨-, hb⟩ <;> rw [hb]
  · rfl
  · rw [blockAfterStep, step_faulted hf]; rfl
  · rcases pressKey_cases k u.block with ⟨-, hp⟩ | ⟨r, hw, -⟩
    · rw [hp]; rfl
    · rw [hr] at hw; cases hw
  · rfl
  · rfl

theorem hostRun_faulted (ops : List HostOp) {u : Session} {r : FaultRecord} (hf : u.block.fault = some r)
    (hr : u.block.run = .running) : OnlyKeysAndRedraw u.block (hostRun ops u).block := by
  refine hostRun_keeps (P := fun w => OnlyKeysAndRedraw u.block w.block) (fun o w hw => hw.trans ?_) ops rfl
  have hwf : w.block.fault = u.block.fault := by rw [hw]
  have hwr : w.block.run = u.block.run := by rw [hw]
  exact hostOp_faulted o (hwf.trans hf) (hwr.trans hr)

/-! ## The obligations -/

/-- Settles O15, from everything a step can do. -/
theorem stepKeepsInvariant : Obligations.StepKeepsInvariant := fun _ _ h ht => step_keeps_inv h ht

/-- Settles O16: construction with the defaults. -/
theorem resetMeetsInvariant : Obligations.ResetMeetsInvariant := construct_inv (c := Config.default) (by decide)

/-- Settles O59, from everything a host operation can do to the block. -/
theorem hostOperationsKeepInvariant : Obligations.HostOperationsKeepInvariant := fun o _ h => hostOp_keeps_inv o h

/-- Settles O17: a launch meets the invariant and every host operation keeps it. -/
theorem everySessionStateMeetsInvariant : Obligations.EverySessionStateMeetsInvariant := fun _ _ ops _ hc hu =>
  hostRun_keeps (P := fun w => w.block.Inv) (fun o _ h => hostOp_keeps_inv o h) ops (launch_inv hc hu)

/-- Settles O57: by the invariant the faulted block is Running, so no host operation changes more than the latch and
`redraw`. -/
theorem faultedStateIsTerminal : Obligations.FaultedStateIsTerminal := by
  intro ops u r _ hinv hf
  have hkept := hostRun_faulted ops hf (hinv.running (by rw [hf]; rfl))
  dsimp only
  rw [hkept]
  exact ⟨hf, rfl, fun _ _ => rfl, rfl, rfl, fun _ => rfl, ⟨rfl, fun _ => rfl⟩, ⟨rfl, rfl, rfl⟩, fun _ _ => rfl, rfl, rfl⟩

end Sys2Proof.Machine
end

section
/-!
PROOFS. Which fields each instruction writes, said once for all of them, and the frames that follow (spec/10_state.md R32, R37,
R40, R43-R48, spec/20_memory.md R68).
-/

namespace Sys2Proof.Machine

/-! ## The fields an instruction writes -/

/-- Everything but the fields that the spec lets `i` write is as before. -/
def WritesOnly (i : Instr) (s t : State) : Prop :=
  match i with
  | .cls => t = { s with fb := t.fb, redraw := t.redraw }
  | .drw _ _ _ => t = { s with v := t.v, fb := t.fb, redraw := t.redraw, fault := t.fault }
  | .ret | .call _ => t = { s with pc := t.pc, stack := t.stack, sp := t.sp, fault := t.fault }
  | .jp _ | .jpV0 _ | .seImm _ _ | .sneImm _ _ | .seReg _ _ | .sneReg _ _ => t = { s with pc := t.pc }
  | .skp _ | .sknp _ => t = { s with pc := t.pc, fault := t.fault }
  | .ldImm _ _ | .addImm _ _ | .ldReg _ _ | .orReg _ _ | .andReg _ _ | .xorReg _ _ | .addReg _ _ | .subReg _ _ | .shr _
  | .subn _ _ | .shl _ | .ldVxDT _ => t = { s with v := t.v }
  | .rnd _ _ => t = { s with v := t.v, draws := t.draws }
  | .loadRegs _ => t = { s with v := t.v, fault := t.fault }
  | .ldVxK _ => t = { s with run := t.run }
  | .ldDT _ => t = { s with dt := t.dt }
  | .ldST _ => t = { s with st := t.st }
  | .ldI _ | .addI _ | .ldF _ => t = { s with i := t.i }
  | .ldB _ | .storeRegs _ => t = { s with mem := t.mem, fault := t.fault }

/-- A body's outcome has what the body's end state has, if taking a fault keeps it. -/
theorem outcome_of_state {P : State → Prop} {r : Body} {t : State} (h : r.outcome = .next t) (hr : P r.state)
    (hf : ∀ f u, P u → P (takeFault f u)) : P t := by
  rcases outcome_cases r with ⟨-, ho⟩ | ⟨f, -, ho⟩
  · rw [ho] at h; cases h; exact hr
  · rw [ho] at h; cases h; exact hf f _ hr

theorem skipIf_writes_pc (b : Bool) (s : State) : skipIf b s = { s with pc := (skipIf b s).pc } := by
  rw [skipIf_eq]; rfl

theorem writeFlagged_writes_v (x : Reg) (flag result : Byte) (s : State) :
    writeFlagged x flag result s = { s with v := (writeFlagged x flag result s).v } := by
  unfold writeFlagged; split <;> rfl

theorem stores_outcome_writes {l : List (Nat × Byte)} {s t : State} (h : (Body.forEach storeCell l s).outcome = .next t) :
    t = { s with mem := t.mem, fault := t.fault } := by
  refine outcome_of_state (P := fun t => t = { s with mem := t.mem, fault := t.fault }) h ?_ fun f u hu => ?_
  · rw [(stores_keep l s).1]
  · rw [hu]; rfl

theorem loads_outcome_writes {x : Reg} {s t : State} (h : exec (.loadRegs x) s = .next t) :
    t = { s with v := t.v, fault := t.fault } ∧ ∀ r : Reg, x < r → t.getV r = s.getV r := by
  obtain ⟨honly, habove⟩ := loads_keep x s
  refine outcome_of_state (P := fun t => t = { s with v := t.v, fault := t.fault } ∧ ∀ r : Reg, x < r → t.getV r = s.getV r)
    h ⟨?_, habove⟩ fun f u ⟨hu, hv⟩ => ⟨?_, hv⟩
  · rw [honly]
  · rw [hu]; rfl

theorem draw_outcome_writes {x y : Reg} {n : Nat} {s t : State} (h : exec (.drw x y n) s = .next t) :
    t = { s with v := t.v, fb := t.fb, redraw := t.redraw, fault := t.fault } ∧ RegsKept [VF] s t := by
  obtain ⟨hbase, hregs⟩ := draw_keeps (s.getV x).toNat (s.getV y).toNat (List.range n) (s.setV VF 0)
  have hregs' : RegsKept [VF] s (s.setV VF 0) := fun r hr => by rw [setV_getV, if_neg (List.ne_of_not_mem_cons hr)]
  simp only [exec, execDrw] at h
  cases hb : Body.forEach (drawRow (s.getV x).toNat (s.getV y).toNat) (List.range n) (s.setV VF 0) with
  | done u =>
    rw [hb] at h hbase hregs; cases h
    refine ⟨?_, fun r hr => (hregs r hr).trans (hregs' r hr)⟩
    rw [state_done] at hbase; rw [hbase]; rfl
  | raised f u =>
    rw [hb] at h hbase hregs; cases h
    refine ⟨?_, fun r hr => (hregs r hr).trans (hregs' r hr)⟩
    rw [state_raised] at hbase; rw [hbase]; rfl

/-- Every instruction, in every state, writes only its own fields and the recorded fault. -/
theorem exec_writesOnly {i : Instr} {s t : State} (h : exec i s = .next t) : WritesOnly i s t := by
  cases i <;> simp only [WritesOnly]
  case ret =>
    simp only [exec, execRet, pop] at h
    split at h
    · next w u hp =>
      split at hp
      · cases hp; cases h; rfl
      · cases hp
    · cases h; rfl
  case call =>
    simp only [exec, execCall, push] at h
    split at h <;> (cases h; rfl)
  case skp | sknp =>
    simp only [exec, execSkp, execSknp] at h
    split at h
    · cases h; rw [skipIf_eq]; rfl
    · cases h; rfl
  case drw => exact (draw_outcome_writes h).1
  case ldB => exact stores_outcome_writes h
  case storeRegs x =>
    simp only [exec, execStoreRegs, forEach_storeReg] at h
    exact stores_outcome_writes h
  case loadRegs => exact (loads_outcome_writes h).1
  case seImm | sneImm | seReg | sneReg => cases h; exact skipIf_writes_pc ..
  case addReg | subReg | shr | subn | shl => cases h; exact writeFlagged_writes_v ..
  all_goals cases h; rfl

/-! ## Frames of single fields -/

theorem stackKept_of_fields {s t : State} (hsp : t.sp = s.sp) (hstack : t.stack = s.stack) : StackKept s t :=
  ⟨hsp, fun k => by simp only [State.getSlot, hstack]⟩

theorem bytesKept_of_fields {s t : State} (hcfg : t.cfg = s.cfg) (hmem : t.mem = s.mem) : BytesKept s t := fun a => by
  simp only [State.readByte, hcfg, hmem]

theorem displayKept_of_fields {s t : State} (hr : t.redraw = s.redraw) (hfb : t.fb = s.fb) : DisplayKept s t :=
  ⟨hr, fun px py => by simp only [State.getPixel, hfb]⟩

theorem keysKept_of_field {s t : State} (h : t.keys = s.keys) : KeysKept s t := fun k => by
  simp only [State.getKey, h]

theorem exec_keeps_cfg {i : Instr} {s t : State} (h : exec i s = .next t) : t.cfg = s.cfg := by
  have hw := exec_writesOnly h
  cases i <;> exact (congrArg State.cfg hw :)

theorem exec_keeps_keys {i : Instr} {s t : State} (h : exec i s = .next t) : KeysKept s t := by
  have hw := exec_writesOnly h
  refine keysKept_of_field ?_
  cases i <;> exact (congrArg State.keys hw :)

/-- R40: only CALL and RET write the stack. -/
theorem exec_keeps_stack {i : Instr} {s t : State} (h : exec i s = .next t) (hret : i ≠ .ret)
    (hcall : ∀ nnn, i ≠ .call nnn) : StackKept s t := by
  have hw := exec_writesOnly h
  cases i
  case ret => exact absurd rfl hret
  case call nnn => exact absurd rfl (hcall nnn)
  all_goals exact stackKept_of_fields (congrArg State.sp hw :) (congrArg State.stack hw :)

/-- R68: only FX33 and FX55 write the memory. -/
theorem exec_keeps_bytes {i : Instr} {s t : State} (h : exec i s = .next t) (hb : ∀ x, i ≠ .ldB x)
    (hstore : ∀ x, i ≠ .storeRegs x) : BytesKept s t := by
  have hw := exec_writesOnly h
  refine bytesKept_of_fields (exec_keeps_cfg h) ?_
  cases i
  case ldB x => exact absurd rfl (hb x)
  case storeRegs x => exact absurd rfl (hstore x)
  all_goals exact (congrArg State.mem hw :)

/-- R46, R47: only 00E0 and DXYN write the framebuffer and `redraw`. -/
theorem exec_keeps_display {i : Instr} {s t : State} (h : exec i s = .next t) (hcls : i ≠ .cls)
    (hdrw : ∀ x y n, i ≠ .drw x y n) : DisplayKept s t := by
  have hw := exec_writesOnly h
  cases i
  case cls => exact absurd rfl hcls
  case drw x y n => exact absurd rfl (hdrw x y n)
  all_goals exact displayKept_of_fields (congrArg State.redraw hw :) (congrArg State.fb hw :)

/-- R37: only ANNN, FX1E and FX29 write `I`. -/
theorem exec_keeps_i {i : Instr} {s t : State} (h : exec i s = .next t) (hld : ∀ nnn, i ≠ .ldI nnn)
    (hadd : ∀ x, i ≠ .addI x) (hfont : ∀ x, i ≠ .ldF x) : t.i = s.i := by
  have hw := exec_writesOnly h
  cases i
  case ldI nnn => exact absurd rfl (hld nnn)
  case addI x => exact absurd rfl (hadd x)
  case ldF x => exact absurd rfl (hfont x)
  all_goals exact (congrArg State.i hw :)

/-- R43: only FX15 writes the delay timer. -/
theorem exec_keeps_dt {i : Instr} {s t : State} (h : exec i s = .next t) (hdt : ∀ x, i ≠ .ldDT x) : t.dt = s.dt := by
  have hw := exec_writesOnly h
  cases i
  case ldDT x => exact absurd rfl (hdt x)
  all_goals exact (congrArg State.dt hw :)

/-- R43: only FX18 writes the sound timer. -/
theorem exec_keeps_st {i : Instr} {s t : State} (h : exec i s = .next t) (hst : ∀ x, i ≠ .ldST x) : t.st = s.st := by
  have hw := exec_writesOnly h
  cases i
  case ldST x => exact absurd rfl (hst x)
  all_goals exact (congrArg State.st hw :)

/-! ## Registers (R32) -/

theorem writeFlagged_getV_other {x r : Reg} (hx : r ≠ x) (hvf : r ≠ VF) (flag result : Byte) (s : State) :
    (writeFlagged x flag result s).getV r = s.getV r :=
  (onlyRegs_writeFlagged x flag result s).1 r (by simp [hx, hvf])

/-- R32: a register the table does not give an instruction is unchanged by it. -/
theorem exec_keeps_getV {i : Instr} {s t : State} {r : Reg} (h : exec i s = .next t) (hr : mayWriteV i r = false) :
    t.getV r = s.getV r := by
  have hw := exec_writesOnly h
  have hv {t : State} (e : t.v = s.v) : t.getV r = s.getV r := by simp only [State.getV, e]
  cases i
  case ldImm | addImm | ldReg | orReg | andReg | xorReg | rnd | ldVxDT =>
    cases h
    have hne := ne_of_beq_false hr
    exact (setV_getV ..).trans (if_neg hne)
  case addReg | subReg | shr | subn | shl =>
    cases h
    obtain ⟨hvf, hx⟩ := Bool.or_eq_false_iff.1 hr
    exact writeFlagged_getV_other (ne_of_beq_false hx) (ne_of_beq_false hvf) ..
  case drw => exact (draw_outcome_writes h).2 r (by simpa using ne_of_beq_false hr)
  case loadRegs x => exact (loads_outcome_writes h).2 r (by simpa [mayWriteV] using hr)
  all_goals exact hv (congrArg State.v hw :)

/-! ## The obligations -/

/-- Settles O37, instruction by instruction of R32's table. -/
theorem instructionsWriteOnlyTheirRegisters : Obligations.InstructionsWriteOnlyTheirRegisters :=
  fun _ _ _ _ h hr => exec_keeps_getV h hr

/-- Settles O53, one clause for each kind of state, from the fields each instruction writes. -/
theorem eachKindOfStateHasItsWriters : Obligations.EachKindOfStateHasItsWriters := by
  intro i s t h
  have hrun (hi : ∀ x, i ≠ .ldVxK x) : t.run = s.run := (exec_keeps_eventState h hi).run
  exact ⟨exec_keeps_stack h, exec_keeps_bytes h, exec_keeps_display h, exec_keeps_i h, exec_keeps_dt h, exec_keeps_st h,
    hrun, exec_keeps_keys h, exec_keeps_beeps h, exec_keeps_cfg h⟩

end Sys2Proof.Machine
end

section
/-!
PROOFS. Keys and timers: the key skips, the timer instructions, the wait for a key and the key events
(spec/45_keys_timers.md R240-R251).
-/

namespace Sys2Proof.Machine

/-! ## The step of an instruction that completes (R121, R126) -/

/-- A step whose instruction records no fault ends with the tick of the state the body left. -/
theorem step_completes {s u : State} {i : Instr} (hi : s.Fetches i) (hu : exec i (advancePc s) = .next u)
    (hf : u.fault = none) : step s = .next (tick u) := by
  rw [step_fetches hi hu, endStep_none hf]

theorem State.Fetches.no_fault {s : State} {i : Instr} (hi : s.Fetches i) : s.fault = none := by
  obtain ⟨⟨hf, -⟩, -⟩ := hi
  exact hf

/-! ## The key skips (R240, R241) -/

theorem keyIndex_of_val {b : Byte} {k : Fin 16} (h : b.toNat = k.val) : keyIndex b = some k := by
  simp [keyIndex, h]

theorem keyIndex_of_ge {b : Byte} (h : 16 ≤ b.toNat) : keyIndex b = none := by
  simp only [keyIndex, dif_neg (Nat.not_lt.2 h)]

theorem exec_skp_of_key {s : State} {x : Reg} {k : Fin 16} (h : (s.getV x).toNat = k.val) :
    exec (.skp x) s = .next (skipIf (s.getKey k) s) := by
  simp only [exec, execSkp, keyIndex_of_val h]

theorem exec_sknp_of_key {s : State} {x : Reg} {k : Fin 16} (h : (s.getV x).toNat = k.val) :
    exec (.sknp x) s = .next (skipIf (!s.getKey k) s) := by
  simp only [exec, execSknp, keyIndex_of_val h]

theorem exec_skp_of_ge {s : State} {x : Reg} (h : 16 ≤ (s.getV x).toNat) :
    exec (.skp x) s = .next (takeFault (.keyIndexOutOfRange (s.getV x)) s) := by
  simp only [exec, execSkp, keyIndex_of_ge h]

theorem exec_sknp_of_ge {s : State} {x : Reg} (h : 16 ≤ (s.getV x).toNat) :
    exec (.sknp x) s = .next (takeFault (.keyIndexOutOfRange (s.getV x)) s) := by
  simp only [exec, execSknp, keyIndex_of_ge h]

/-- The condition of SKNP. -/
theorem skipIf_not_only_pc (b : Bool) (s : State) :
    (skipIf (!b) s).pc = (if b = true then s.pc else s.pc + 2) ∧ OnlyPc s (skipIf (!b) s) := by
  simpa only [Bool.not_eq_true', ← Bool.not_eq_true, ite_not] using skipIf_only_pc (!b) s

/-! ## Frames of the timer writes and of the wait (R249-R251) -/

theorem setDT_frame (s : State) (b : Byte) : RegsKept [] s (s.setDT b) ∧ (s.setDT b).i = s.i ∧ BytesKept s (s.setDT b) ∧
    StackKept s (s.setDT b) ∧ DisplayKept s (s.setDT b) ∧ KeysKept s (s.setDT b) ∧ ControlKept s (s.setDT b) ∧
    EnvKept s (s.setDT b) := by
  simp [RegsKept, BytesKept, StackKept, DisplayKept, KeysKept, ControlKept, EnvKept]

theorem setST_frame (s : State) (b : Byte) : RegsKept [] s (s.setST b) ∧ (s.setST b).i = s.i ∧ BytesKept s (s.setST b) ∧
    StackKept s (s.setST b) ∧ DisplayKept s (s.setST b) ∧ KeysKept s (s.setST b) ∧ ControlKept s (s.setST b) ∧
    EnvKept s (s.setST b) := by
  simp [RegsKept, BytesKept, StackKept, DisplayKept, KeysKept, ControlKept, EnvKept]

theorem setRun_frame (s : State) (r : RunState) : RegsKept [] s (s.setRun r) ∧ (s.setRun r).i = s.i ∧
    BytesKept s (s.setRun r) ∧ StackKept s (s.setRun r) ∧ TimersKept s (s.setRun r) ∧ DisplayKept s (s.setRun r) ∧
    KeysKept s (s.setRun r) ∧ EnvKept s (s.setRun r) := by
  simp [RegsKept, BytesKept, StackKept, TimersKept, DisplayKept, KeysKept, EnvKept]

/-! ## Key events (R245, R246) -/

theorem hostOp_pressKey (u : Session) (q : Fin 16) :
    hostOp (.pressKey q.val) u = (⟨u.phase, pressKey q u.block⟩, .done) := by simp [hostOp, keyOp]

theorem hostOp_releaseKey (u : Session) (q : Fin 16) :
    hostOp (.releaseKey q.val) u = (⟨u.phase, releaseKey q u.block⟩, .done) := by simp [hostOp, keyOp]

theorem pressKey_getKey (q c : Fin 16) (s : State) : (pressKey q s).getKey c = if c = q then true else s.getKey c := by
  rcases pressKey_cases q s with ⟨-, hp⟩ | ⟨r, -, hp⟩ <;> rw [hp] <;> simp

theorem releaseKey_getKey (q c : Fin 16) (s : State) :
    (releaseKey q s).getKey c = if c = q then false else s.getKey c := setKey_getKey ..

theorem pressKey_run (q : Fin 16) (s : State) : (pressKey q s).run = .running := by
  rcases pressKey_cases q s with ⟨hr, hp⟩ | ⟨r, -, hp⟩ <;> rw [hp]
  · exact hr
  · rfl

/-- A press of a waiting block gives the pending register the key's index, and writes no other register. -/
theorem pressKey_ends_wait {q : Fin 16} {s : State} {r : Reg} (h : s.run = .waitingForKey r) :
    ((pressKey q s).getV r).toNat = q.val ∧ RegsKept [r] s (pressKey q s) := by
  have hp : pressKey q s = ((s.setKey q true).setV r (BitVec.ofNat 8 q.val)).setRun .running := by
    simp [pressKey, endWait, h]
  rw [hp]
  refine ⟨?_, fun p hr => ?_⟩
  · rw [setRun_getV, setV_getV_same, BitVec.toNat_ofNat]; omega
  · rw [setRun_getV, setV_getV, if_neg (List.ne_of_not_mem_cons hr), setKey_getV]

theorem pressKey_running_regs {q : Fin 16} {s : State} (h : s.run = .running) : RegsKept [] s (pressKey q s) := by
  have hp : pressKey q s = s.setKey q true := by simp [pressKey, endWait, h]
  rw [hp]
  exact fun _ _ => rfl

theorem pressKey_frame (q : Fin 16) (s : State) : (pressKey q s).pc = s.pc ∧ (pressKey q s).i = s.i ∧
    BytesKept s (pressKey q s) ∧ StackKept s (pressKey q s) ∧ TimersKept s (pressKey q s) ∧
    DisplayKept s (pressKey q s) ∧ (pressKey q s).fault = s.fault ∧ EnvKept s (pressKey q s) := by
  rcases pressKey_cases q s with ⟨-, hp⟩ | ⟨r, -, hp⟩ <;> rw [hp] <;>
    simp [BytesKept, StackKept, TimersKept, DisplayKept, EnvKept]

theorem releaseKey_frame (q : Fin 16) (s : State) : RegsKept [] s (releaseKey q s) ∧ (releaseKey q s).pc = s.pc ∧
    (releaseKey q s).i = s.i ∧ BytesKept s (releaseKey q s) ∧ StackKept s (releaseKey q s) ∧
    TimersKept s (releaseKey q s) ∧ DisplayKept s (releaseKey q s) ∧ ControlKept s (releaseKey q s) ∧
    EnvKept s (releaseKey q s) := by
  simp [releaseKey, RegsKept, BytesKept, StackKept, TimersKept, DisplayKept, ControlKept, EnvKept]

/-! ## The latch (R247) -/

/-- No step changes the latch. -/
theorem blockAfterStep_keeps_keys (s : State) (q : Fin 16) : (blockAfterStep s).getKey q = s.getKey q := by
  rcases blockAfterStep_cases s with ⟨i, u, -, hu, hb⟩ | hkept
  · have hend : (endStep u).getKey q = u.getKey q := by unfold endStep; split <;> simp
    rw [hb, hend]
    exact exec_keeps_keys (s := advancePc s) hu q
  · simp only [State.getKey, hkept.keys]

/-! ## The obligations -/

/-- Settles O30: with a key named each is `skipIf` of the latch cell, and with none each raises at once. -/
theorem keySkipsTestTheLatch : Obligations.KeySkipsTestTheLatch := by
  intro s x
  refine ⟨fun k hk => ⟨?_, ?_⟩, fun hge hi => ?_⟩
  · exact ⟨_, exec_skp_of_key hk, skipIf_only_pc (s.getKey k) s⟩
  · exact ⟨_, exec_sknp_of_key hk, skipIf_not_only_pc (s.getKey k) s⟩
  · rcases hi with hi | hi
    · exact step_raises_at_once hi (exec_skp_of_ge (s := advancePc s) hge)
    · exact step_raises_at_once hi (exec_sknp_of_ge (s := advancePc s) hge)

/-- Settles O49: each of the three is one write. -/
theorem timerInstructionsMoveTheTimers : Obligations.TimerInstructionsMoveTheTimers := fun s x =>
  ⟨⟨s.setV x s.dt, rfl, setV_getV_same .., onlyRegs_setV ..⟩,
   ⟨s.setDT (s.getV x), rfl, rfl, rfl, rfl, rfl, setDT_frame ..⟩,
   ⟨s.setST (s.getV x), rfl, rfl, rfl, rfl, rfl, setST_frame ..⟩⟩

/-- Settles O50: the tick of what each body leaves. -/
theorem timersTickInTheStepThatUsesThem : Obligations.TimersTickInTheStepThatUsesThem := by
  intro s x
  refine ⟨fun hi => ?_, fun hi => ?_, fun hi => ?_⟩
  · refine ⟨_, step_completes hi rfl hi.no_fault, ?_, tick_dt_toNat _, tick_pc _⟩
    rw [tick_getV]; exact setV_getV_same ..
  · exact ⟨_, step_completes hi rfl hi.no_fault, tick_dt_toNat _, tick_pc _⟩
  · exact ⟨_, step_completes hi rfl hi.no_fault, tick_st_toNat _, tick_beeps _, tick_pc _⟩

/-- Settles O51: the body is one write of `run`, and its step ticks. -/
theorem waitForKeyEntersTheWait : Obligations.WaitForKeyEntersTheWait := by
  intro s x
  refine ⟨⟨s.setRun (.waitingForKey x), rfl, rfl, rfl, rfl, setRun_frame ..⟩, fun hi => ?_⟩
  exact ⟨_, step_completes hi rfl hi.no_fault, tick_run _, tick_pc _, fun _ _ => tick_getV .., tick_dt_toNat _,
    tick_st_toNat _⟩

/-- Settles O52: an admitted key event is `pressKey` or `releaseKey` of its cell, and an index of 16 or more is none. -/
theorem keyEventsSetTheLatchAndEndTheWait : Obligations.KeyEventsSetTheLatchAndEndTheWait := by
  intro u k
  refine ⟨?_, ?_, fun hk => ?_⟩
  · rintro q rfl
    refine ⟨_, hostOp_pressKey u q, ?_, fun c hc => ?_, pressKey_run q u.block, fun r hr => pressKey_ends_wait hr,
      pressKey_running_regs, pressKey_frame q u.block⟩
    · rw [pressKey_getKey, if_pos rfl]
    · rw [pressKey_getKey, if_neg hc]
  · rintro q rfl
    refine ⟨_, hostOp_releaseKey u q, ?_, fun c hc => ?_, releaseKey_frame q u.block⟩
    · rw [releaseKey_getKey, if_pos rfl]
    · rw [releaseKey_getKey, if_neg hc]
  · simp [hostOp, keyOp, Nat.not_lt.2 hk]

/-- Settles O54, from everything a host operation can do to the block. -/
theorem onlyKeyEventsChangeTheLatch : Obligations.OnlyKeyEventsChangeTheLatch := by
  refine ⟨fun o u q hne => ?_, fun u q => ⟨?_, ?_⟩⟩
  · rcases hostOp_block o u with hb | ⟨-, hb⟩ | ⟨k, ho, hb⟩ | ⟨k, ho, hb⟩ | ⟨-, hb⟩ <;> rw [hb] at hne
    · exact absurd rfl hne
    · exact absurd (blockAfterStep_keeps_keys u.block q) hne
    · by_cases hq : q = k
      · exact .inl (hq ▸ ho)
      · rw [pressKey_getKey, if_neg hq] at hne; exact absurd rfl hne
    · by_cases hq : q = k
      · exact .inr (hq ▸ ho)
      · rw [releaseKey_getKey, if_neg hq] at hne; exact absurd rfl hne
    · exact absurd rfl hne
  · rw [hostOp_pressKey, pressKey_getKey, if_pos rfl]
  · rw [hostOp_releaseKey, releaseKey_getKey, if_pos rfl]

end Sys2Proof.Machine
end

section
/-!
PROOFS. The step cycle: what a step runs, what it leaves when it completes and when it raises, where it leaves `pc`, and steps
that repeat (spec/40_execution_cycle.md R121-R134, spec/10_state.md R35, spec/60_exceptions.md R261-R263).
-/

namespace Sys2Proof.Machine

/-! ## The end of a step -/

theorem endStep_eq_ite (u : State) : endStep u = if u.fault = none then tick u else u := by
  cases hf : u.fault with
  | none => rw [endStep_none hf, if_pos rfl]
  | some r => rw [endStep_some hf, if_neg (by simp)]

theorem endStep_pc (u : State) : (endStep u).pc = u.pc := by unfold endStep; split <;> simp

theorem ticked_tick (u : State) : Ticked u (tick u) := by
  refine ⟨tick_dt_toNat u, tick_st_toNat u, tick_beeps u, ?_⟩
  simp [RegsKept, BytesKept, StackKept, DisplayKept, KeysKept, ControlKept, EnvKept]

/-! ## The fetch (R122, R64) -/

theorem resolve_outside_fault {c : Config} {addr : Nat} (h : c.memSize ≤ addr) (hf : c.memOob = .fault) :
    resolve c addr = .error (.memoryOutOfRange addr) := by
  simp [resolve, Nat.not_lt.2 h, hf]

theorem resolve_outside_wrap {c : Config} {addr : Nat} (h : c.memSize ≤ addr) (hw : c.memOob = .wrap) :
    resolve c addr = .ok (addr % c.memSize) := by
  simp [resolve, Nat.not_lt.2 h, hw]

/-- Under MEM_OOB_POLICY = fault, a fetch that reaches past the memory raises at its first byte that does. -/
theorem fetch_past_memory {s : State} (hpol : s.cfg.memOob = .fault) (h : s.cfg.memSize ≤ s.pc.toNat + 1) :
    fetch s = .error (.memoryOutOfRange (if s.cfg.memSize ≤ s.pc.toNat then s.pc.toNat else s.pc.toNat + 1)) := by
  split
  · next hpc => exact memReadWord_high_error (memRead_eq_error.2 (resolve_outside_fault hpc hpol))
  · next hpc =>
    exact memReadWord_low_error (memRead_inside (Nat.not_le.1 hpc)) (memRead_eq_error.2 (resolve_outside_fault h hpol))

/-! ## A step that raises (R261, R263) -/

/-- A fault taken after the advance records the address fetched from. -/
theorem takeFault_advancePc (f : Fault) (s : State) :
    takeFault f (advancePc s) = (s.setPc (s.pc + 2)).recordFault ⟨f, s.pc⟩ := by simp

/-- A step answers a fault exactly when that fault is recorded (log 5). -/
theorem step_eq_fault {s : State} {f : Fault} : step s = .fault f ↔ ∃ a, s.fault = some ⟨f, a⟩ := by
  refine ⟨fun h => ?_, fun ⟨a, ha⟩ => step_faulted ha⟩
  cases hf : s.fault with
  | none => obtain ⟨t, ht⟩ := step_answers hf; rw [ht] at h; cases h
  | some r => rw [step_faulted hf] at h; cases h; exact ⟨r.fetchedAt, rfl⟩

/-- A ready block's step that ends with a fault recorded took it in the fetch, or after the advance of `pc` with no more than
registers, bytes and pixels changed. -/
theorem step_raised_cases {s t : State} (hs : s.Ready) (ht : step s = .next t) (hf : t.fault ≠ none) :
    (∃ f, fetch s = .error f ∧ t = takeFetchFault f s) ∨
    (∃ op f u, fetch s = .ok op ∧ PartlyDone (advancePc s) u ∧ t = takeFault f u) := by
  rcases ready_cases hs with ⟨f, ho, he⟩ | ⟨op, ho, -, he⟩ | ⟨i, u, ⟨-, op, ho, -⟩, hu, he⟩ <;> rw [he] at ht <;> cases ht
  · exact .inl ⟨f, ho, rfl⟩
  · exact .inr ⟨op, _, advancePc s, ho, rfl, rfl⟩
  · rw [endStep_fault] at hf
    rcases exec_cases hu with hkept | ⟨f, w, rfl, hw⟩
    · exact absurd (hkept.trans hs.1) hf
    · exact .inr ⟨op, f, w, ho, hw, endStep_some rfl⟩

/-! ## Where an instruction leaves `pc` (R35) -/

theorem pc_add_two_two (w : Word) : w + 2 + 2 = w + 4 := by rw [BitVec.add_assoc]; rfl

/-- Over a step, SE on `p` and `q` leaves `pc` past the skipped instruction when they are equal. -/
theorem skipIf_beq_pc (p q : Byte) (s : State) :
    (skipIf (p == q) (advancePc s)).pc = if p = q then s.pc + 4 else s.pc + 2 := by
  rw [(skipIf_beq_only_pc p q (advancePc s)).1, advancePc_eq, setPc_pc, pc_add_two_two]

theorem skipIf_bne_pc (p q : Byte) (s : State) :
    (skipIf (p != q) (advancePc s)).pc = if p ≠ q then s.pc + 4 else s.pc + 2 := by
  rw [(skipIf_bne_only_pc p q (advancePc s)).1, advancePc_eq, setPc_pc, pc_add_two_two, ite_not]

theorem skipIf_pc (b : Bool) (s : State) :
    (skipIf b (advancePc s)).pc = if b = true then s.pc + 4 else s.pc + 2 := by
  rw [(skipIf_only_pc b (advancePc s)).1, advancePc_eq, setPc_pc, pc_add_two_two]

/-- A key skip that records no fault names a key. -/
theorem exec_skp_pc {s u : State} {x : Reg} (hu : exec (.skp x) (advancePc s) = .next u) (hf : u.fault = none) :
    ∃ k : Fin 16, k.val = (s.getV x).toNat ∧ u.pc = if s.getKey k = true then s.pc + 4 else s.pc + 2 := by
  by_cases h : (s.getV x).toNat < 16
  · rw [exec_skp_of_key (s := advancePc s) (k := ⟨_, h⟩) rfl] at hu; cases hu
    exact ⟨⟨_, h⟩, rfl, skipIf_pc ..⟩
  · rw [exec_skp_of_ge (s := advancePc s) (Nat.not_lt.1 h)] at hu; cases hu; cases hf

theorem exec_sknp_pc {s u : State} {x : Reg} (hu : exec (.sknp x) (advancePc s) = .next u) (hf : u.fault = none) :
    ∃ k : Fin 16, k.val = (s.getV x).toNat ∧ u.pc = if s.getKey k = false then s.pc + 4 else s.pc + 2 := by
  by_cases h : (s.getV x).toNat < 16
  · rw [exec_sknp_of_key (s := advancePc s) (k := ⟨_, h⟩) rfl] at hu; cases hu
    have hpc := skipIf_pc (!s.getKey ⟨_, h⟩) s
    simp only [Bool.not_eq_true'] at hpc
    exact ⟨⟨_, h⟩, rfl, hpc⟩
  · rw [exec_sknp_of_ge (s := advancePc s) (Nat.not_lt.1 h)] at hu; cases hu; cases hf

theorem exec_call_pc {s u : State} {nnn : BitVec 12} (hu : exec (.call nnn) s = .next u) (hf : u.fault = none) :
    u.pc.toNat = nnn.toNat := by
  by_cases h : s.sp.val < 16
  · rw [exec_call_of_lt h] at hu; cases hu; exact zext16_toNat nnn
  · rw [exec_call_full (by omega)] at hu; cases hu; cases hf

theorem exec_ret_pc {s u : State} (hu : exec .ret s = .next u) (hf : u.fault = none) :
    ∃ k : Fin 16, k.val + 1 = s.sp.val ∧ u.pc = s.getSlot k := by
  by_cases h : s.sp.val = 0
  · rw [exec_ret_empty h] at hu; cases hu; cases hf
  · have hk : s.sp.val = (⟨s.sp.val - 1, by omega⟩ : Fin 16).val + 1 := by simp only; omega
    rw [exec_ret_of_depth hk] at hu; cases hu
    exact ⟨_, hk.symm, rfl⟩

/-! ## Steps that repeat (R127, R134) -/

theorem run_succ {s t : State} (h : step s = .next t) (k : Nat) :
    Host.Core.run core (k + 1) s = Host.Core.run core k t := by
  have h' : core.step s = .next t := h
  simp only [Host.Core.run, h']

theorem run_of_fixed {s : State} (h : step s = .next s) (k : Nat) : Host.Core.run core k s = .next s := by
  induction k with
  | zero => rfl
  | succ k ih => rw [run_succ h, ih]

/-- Nothing but the timers and the beep count changes. -/
def OnlyTimers (s t : State) : Prop := t = { s with dt := t.dt, st := t.st, beeps := t.beeps }

theorem onlyTimers_tick (s : State) : OnlyTimers s (tick s) := by rw [OnlyTimers, tick_eq]

/-- A fetch does not look at the timers. -/
theorem OnlyTimers.fetches {s t : State} (h : OnlyTimers s t) {i : Instr} (hi : s.Fetches i) : t.Fetches i := by
  rw [h]; exact hi

theorem onlyTimers_iterate_tick (s : State) (k : Nat) : OnlyTimers s (tick^[k] s) := by
  induction k with
  | zero => rfl
  | succ k ih => rw [Function.iterate_succ_apply', OnlyTimers, onlyTimers_tick, ih]

theorem iterate_tick_dt (s : State) (k : Nat) : (tick^[k] s).dt.toNat = s.dt.toNat - k := by
  induction k with
  | zero => rfl
  | succ k ih => rw [Function.iterate_succ_apply', tick_dt_toNat, ih, Nat.sub_sub]

theorem iterate_tick_st (s : State) (k : Nat) : (tick^[k] s).st.toNat = s.st.toNat - k := by
  induction k with
  | zero => rfl
  | succ k ih => rw [Function.iterate_succ_apply', tick_st_toNat, ih, Nat.sub_sub]

/-- R44: of `k` ticks the one that finds ST = 1 beeps, if there is one. -/
theorem iterate_tick_beeps (s : State) (k : Nat) :
    (tick^[k] s).beeps = if 1 ≤ s.st.toNat ∧ s.st.toNat ≤ k then s.beeps + 1 else s.beeps := by
  induction k with
  | zero => rw [if_neg (by omega)]; rfl
  | succ k ih =>
    rw [Function.iterate_succ_apply', tick_beeps, iterate_tick_st, ih]
    split_ifs <;> omega

/-- A jump to its own address leaves nothing but the tick. -/
theorem step_spinning {s : State} {nnn : BitVec 12} (hi : s.Fetches (.jp nnn)) (hpc : s.pc.toNat = nnn.toNat) :
    step s = .next (tick s) := by
  have hself : zext16 nnn = s.pc := BitVec.eq_of_toNat_eq (by rw [zext16_toNat, hpc])
  have hjump : exec (.jp nnn) (advancePc s) = .next s := by
    rw [exec, execJp, hself]; rfl
  exact step_completes hi hjump hi.no_fault

theorem run_spinning {s : State} {nnn : BitVec 12} (hi : s.Fetches (.jp nnn)) (hpc : s.pc.toNat = nnn.toNat) (k : Nat) :
    Host.Core.run core k s = .next (tick^[k] s) := by
  induction k generalizing s with
  | zero => rfl
  | succ k ih =>
    rw [run_succ (step_spinning hi hpc), Function.iterate_succ_apply]
    exact ih ((onlyTimers_tick s).fetches hi) (by rw [tick_pc, hpc])

/-! ## The obligations -/

/-- Settles O6: the fetch reads the two bytes, and the step ends with Tick unless the body raised. -/
theorem stepRunsTheDecodedInstruction : Obligations.StepRunsTheDecodedInstruction := by
  intro s i a b hs ha hb hd
  have hi : s.Fetches i := ⟨hs, _, fetch_eq ha hb, hd⟩
  exact ⟨hi, fun u hu => by rw [step_fetches hi hu, endStep_eq_ite]⟩

/-- Settles O7, from the first byte of the fetch that is out of reach. -/
theorem fetchPastMemoryFaults : Obligations.FetchPastMemoryFaults := by
  intro s hs hpol hpast
  exact ⟨_, step_fetchFault hs (fetch_past_memory hpol hpast), onlyFault_recordFault .., rfl⟩

/-- Settles O8: the fault is taken after the advance. -/
theorem unknownOpcodeChangesOnlyPc : Obligations.UnknownOpcodeChangesOnlyPc := by
  intro s op hs ho hd
  refine ⟨_, step_unknown hs ho hd, ?_⟩
  rw [takeFault_advancePc]
  exact ⟨rfl, onlyFault_recordFault ..⟩

/-- Settles O9: the step of a waiting block answers the block itself. -/
theorem waitingStepsChangeNothing : Obligations.WaitingStepsChangeNothing := fun _ _ k hf hw =>
  run_of_fixed (step_waiting hf hw) k

/-- Settles O10: the step answers the record, so the host's step leaves the block and replies with it. -/
theorem faultedStepReturnsItsFault : Obligations.FaultedStepReturnsItsFault := by
  intro u r hf
  have hstep := step_faulted hf
  have hblock : blockAfterStep u.block = u.block := by rw [blockAfterStep, hstep]
  refine ⟨hstep, ?_⟩
  rw [hostOp, stepOp, hblock, stepReply, hf]

/-- Settles O11: a raise in the fetch leaves the block as it was, and one after the advance has changed `pc`, registers, bytes
and pixels at most. -/
theorem raisingStepDoesNotTick : Obligations.RaisingStepDoesNotTick := by
  intro s t r hs ht hf
  obtain ⟨-, hrun⟩ := id hs
  rcases step_raised_cases hs ht (by rw [hf]; exact Option.some_ne_none r) with
    ⟨f, ho, rfl⟩ | ⟨op, f, u, ho, hu, rfl⟩ <;> cases hf
  · refine ⟨rfl, ⟨rfl, rfl, rfl⟩, ⟨rfl, fun _ => rfl⟩, fun _ => rfl, ⟨rfl, rfl⟩, rfl, hrun, rfl, fun g hg => ?_, fun op hop => ?_⟩
    · rw [ho] at hg; cases hg; exact ⟨rfl, rfl⟩
    · rw [ho] at hop; cases hop
  · rw [hu]
    refine ⟨BitVec.add_sub_cancel .., ⟨rfl, rfl, rfl⟩, ⟨rfl, fun _ => rfl⟩, fun _ => rfl, ⟨rfl, rfl⟩, rfl, hrun, rfl,
      fun g hg => ?_, fun _ _ => rfl⟩
    rw [ho] at hg; cases hg

/-- Settles O12: Tick, field by field. -/
theorem completedStepTicks : Obligations.CompletedStepTicks := fun _ u _ hi hu hf =>
  ⟨tick u, step_completes hi hu hf, ticked_tick u⟩

/-- Settles O13, from the outcomes of bodies and the cases of a step. -/
theorem everyStepAnswers : Obligations.EveryStepAnswers := by
  refine ⟨exec_answers, fun s hf => step_answers hf, fun s f => step_eq_fault, fun s r h => ?_⟩
  cases hf : s.fault with
  | none => obtain ⟨t, ht⟩ := step_answers hf; rw [ht] at h; cases h
  | some q => rw [step_faulted hf] at h; cases h

/-- Settles O14: a fault is taken after the advance, and an instruction that completes writes `pc` as its row of R35 says. -/
theorem pcAfterEachInstruction : Obligations.PcAfterEachInstruction := by
  intro s t i hi ht
  obtain ⟨hs, op, ho, -⟩ := id hi
  refine ⟨fun hf => ?_, fun hf => ?_⟩
  · rcases step_raised_cases hs ht hf with ⟨f, he, -⟩ | ⟨_, f, w, -, hw, rfl⟩
    · rw [ho] at he; cases he
    · rw [hw]; rfl
  · obtain ⟨u, hu⟩ := exec_answers i (advancePc s)
    rw [step_fetches hi hu] at ht; cases ht
    rw [endStep_fault] at hf
    have hw := exec_writesOnly hu
    rw [endStep_pc]
    cases i
    case jp nnn => cases hu; exact zext16_toNat nnn
    case jpV0 nnn => cases hu; exact zext16_add_byteToWord_toNat nnn (s.getV 0)
    case call => exact exec_call_pc hu hf
    case ret => exact exec_ret_pc (s := advancePc s) hu hf
    case seImm x kk => cases hu; exact skipIf_beq_pc (s.getV x) kk s
    case sneImm x kk => cases hu; exact skipIf_bne_pc (s.getV x) kk s
    case seReg x y => cases hu; exact skipIf_beq_pc (s.getV x) (s.getV y) s
    case sneReg x y => cases hu; exact skipIf_bne_pc (s.getV x) (s.getV y) s
    case skp => exact exec_skp_pc hu hf
    case sknp => exact exec_sknp_pc hu hf
    all_goals exact (congrArg State.pc hw :)

/-- Settles O58: each step is one tick, and ticks do not change what the next step fetches. -/
theorem spinningOnlyTicksTheTimers : Obligations.SpinningOnlyTicksTheTimers := by
  intro s nnn k hi hpc
  have honly := onlyTimers_iterate_tick s k
  refine ⟨tick^[k] s, run_spinning hi hpc k, honly.fetches hi, iterate_tick_dt s k, iterate_tick_st s k,
    iterate_tick_beeps s k, ?_⟩
  rw [honly]
  exact ⟨fun _ _ => rfl, rfl, rfl, fun _ => rfl, ⟨rfl, fun _ => rfl⟩, ⟨rfl, fun _ _ => rfl⟩, fun _ => rfl, ⟨rfl, rfl⟩, rfl, rfl⟩

end Sys2Proof.Machine
end

section
/-!
PROOFS. Memory policy, construction, the load and the launch, and the word the next fetch reads (spec/20_memory.md R64, R75,
spec/70_reset_and_hazards.md R54, R293, R294).
-/

namespace Sys2Proof.Machine

/-! ## Byte accesses past the memory (R64) -/

theorem memWrite_reached {s : State} {addr a : Nat} (h : resolve s.cfg addr = .ok a) (v : Byte) :
    memWrite addr v s = .done (s.putByte a v) := memWrite_eq_done.2 ⟨a, h, rfl⟩

theorem memRead_reached {s : State} {addr a : Nat} (h : resolve s.cfg addr = .ok a) :
    memRead addr s = .ok (s.readByte a) := memRead_eq_ok.2 ⟨a, h, rfl⟩

/-! ## A stored word (R65, R75) -/

/-- A word store that completes is two byte stores, the high byte first. -/
theorem memWriteWord_done {addr : Nat} {w : Word} {s t : State} (h : memWriteWord addr w s = .done t) :
    ∃ a b, resolve s.cfg addr = .ok a ∧ resolve s.cfg (addr + 1) = .ok b ∧
      t = (s.putByte a (highByte w)).putByte b (lowByte w) := by
  unfold memWriteWord at h
  cases hhi : memWrite addr (highByte w) s with
  | raised f u => rw [hhi] at h; cases h
  | done u =>
    rw [hhi] at h
    obtain ⟨a, ha, rfl⟩ := memWrite_eq_done.1 hhi
    obtain ⟨b, hb, rfl⟩ := memWrite_eq_done.1 h
    exact ⟨a, b, ha, hb, rfl⟩

/-! ## The construction contents (R39, R54) -/

/-- R54: outside the font, construction fills the memory. -/
theorem initByte_outside_font {c : Config} {a : Nat} (h : c.fontBase + 80 ≤ a) : initByte c a = c.initMemFill := by
  rw [initByte, dif_neg (by omega)]

/-! ## The load and the launch (R293, R294) -/

/-- R293: what a load leaves. -/
theorem storeImage_spec (bytes : List Byte) (s : State) : OnlyMemory s (storeImage bytes s) ∧
    (∀ (k : Nat) (h : k < bytes.length), (storeImage bytes s).readByte (s.cfg.progStart.toNat + k) = bytes[k]) ∧
    BytesKeptOutside s.cfg.progStart.toNat bytes.length s (storeImage bytes s) :=
  storeCells_from bytes s.cfg.progStart.toNat s

theorem loadProgram_of_fits {bytes : List Byte} {s : State} (h : bytes.length ≤ s.cfg.memSize - s.cfg.progStart.toNat) :
    loadProgram bytes s = .next (storeImage bytes s) := if_pos h

theorem loadProgram_of_too_large {bytes : List Byte} {s : State}
    (h : s.cfg.memSize - s.cfg.progStart.toNat < bytes.length) :
    loadProgram bytes s = .refused (.imageTooLarge bytes.length) := if_neg (Nat.not_le.2 h)

theorem hostOp_keeps_stepped (o : HostOp) {u : Session} (h : u.phase = .stepped) : (hostOp o u).1.phase = .stepped := by
  cases o with
  | loadProgram bytes => simp only [hostOp, loadOp, h]
  | step => rfl
  | pressKey k => simp only [hostOp, keyOp]; split <;> exact h
  | releaseKey k => simp only [hostOp, keyOp]; split <;> exact h
  | readRedraw => exact h
  | clearRedraw => exact h
  | readPixel px py => exact h

/-! ## The obligations -/

/-- Settles O19: each clause is one branch of `resolve`. -/
theorem outOfRangeFollowsThePolicy : Obligations.OutOfRangeFollowsThePolicy := by
  intro s addr v
  refine ⟨fun hin => ?_, fun hout hpol => ?_, fun hout hpol => ?_⟩
  · exact ⟨memRead_inside hin, memWrite_reached (resolve_inside hin) v⟩
  · have hres := resolve_outside_fault hout hpol
    exact ⟨memRead_eq_error.2 hres, memWrite_eq_raised.2 ⟨hres, rfl⟩⟩
  · have hres := resolve_outside_wrap hout hpol
    exact ⟨memRead_reached hres, memWrite_reached hres v⟩

/-- Settles O21: the two addresses reach different bytes, so the fetch reads back both. -/
theorem storedWordIsFetched : Obligations.StoredWordIsFetched := by
  intro s t w hc h
  obtain ⟨a, b, ha, hb, rfl⟩ := memWriteWord_done h
  have hsize := memSize_pos hc
  have hne : a ≠ b := by
    rintro rfl
    have := resolve_inj ha hb (by omega) (by omega)
    omega
  have hfetch := fetch_eq (s := (s.putByte a (highByte w)).putByte b (lowByte w)) ha hb
  simpa [hne] using hfetch

/-- Settles O22, field by field; above the font the memory is the fill. -/
theorem resetHasTheConstructionValues : Obligations.ResetHasTheConstructionValues := by
  refine ⟨by decide, rfl, rfl, rfl, rfl, rfl, by decide, fun px py => ?_, rfl, rfl, rfl, rfl, by decide, fun a ha _ => ?_⟩
  · simp [State.reset, State.construct, Config.default, State.getPixel]
  · exact initByte_outside_font (c := Config.default) ha

/-- Settles O23: the image is stored byte after byte when it fits. -/
theorem loadProgramCopiesTheImage : Obligations.LoadProgramCopiesTheImage := fun s bytes =>
  ⟨fun hfits => ⟨_, loadProgram_of_fits hfits, storeImage_spec bytes s⟩, loadProgram_of_too_large⟩

/-- Settles O24: a session past its first step stays there. -/
theorem noLoadAfterTheFirstStep : Obligations.NoLoadAfterTheFirstStep := by
  intro u ops bytes
  have hphase := hostRun_keeps (P := fun w => w.phase = .stepped) (fun o _ h => hostOp_keeps_stepped o h) ops
    (u := (hostOp .step u).1) rfl
  simp only [hostOp, loadOp] at hphase ⊢
  rw [hphase]

/-- Settles O60: a launch is `loadProgram` on the constructed block. -/
theorem launchConstructsAndLoads : Obligations.LaunchConstructsAndLoads := by
  refine ⟨fun c bytes => ⟨fun hfits => ?_, fun hlong => ?_⟩, fun _ _ => rfl⟩
  · have hload := loadProgram_of_fits (s := State.construct c) hfits
    exact ⟨_, by rw [Session.launch, hload], hload, storeImage_spec bytes (State.construct c)⟩
  · rw [Session.launch, loadProgram_of_too_large (s := State.construct c) hlong]

end Sys2Proof.Machine
end

section
/-!
PROOFS. The shifts, a destination VF, RND, the index instructions, and a RET after a CALL (spec/41_control_flow.md R148,
spec/42_register_alu.md R168, R170, R175, R179, spec/43_index_memory.md R190-R193).
-/

namespace Sys2Proof.Machine

/-! ## Flags and results of the shifts (R168, R170) -/

theorem shrFlag_toNat (p : Byte) : (shrFlag p).toNat = p.toNat % 2 := by
  rw [shrFlag, BitVec.toNat_and]; exact Nat.and_one_is_mod p.toNat

/-- R170, R300: the flag of SHL is the raw bit, 0 or 128. -/
theorem shlFlag_toNat (p : Byte) : (shlFlag p).toNat = if p.toNat ≥ 128 then 128 else 0 := by
  revert p; decide

theorem shrByte_toNat (p : Byte) : (shrByte p).toNat = p.toNat / 2 := by
  have := p.isLt
  rw [shrByte, BitVec.toNat_ofNat]; omega

theorem shlByte_toNat (p : Byte) : (shlByte p).toNat = p.toNat * 2 % 256 := BitVec.toNat_ofNat ..

/-! ## Flags and results as bytes (R166, R167, R169) -/

theorem carryFlag_eq_of_toNat {p q flag : Byte} (h : flag.toNat = (p.toNat + q.toNat) / 256) : flag = carryFlag p q := by
  have := p.isLt
  have := q.isLt
  apply BitVec.eq_of_toNat_eq
  rw [carryFlag_toNat, h]; split <;> omega

theorem notBorrowFlag_eq (p q : Byte) : notBorrowFlag p q = if q.toNat < p.toNat then 1 else 0 := by
  simp only [notBorrowFlag, bit01, decide_eq_true_eq, gt_iff_lt]

theorem subByte_eq (p q : Byte) : subByte p q = p - q := by
  apply BitVec.eq_of_toNat_eq
  have := p.isLt
  have := q.isLt
  rw [subByte_toNat, BitVec.toNat_sub]; omega

/-! ## A destination VF (R179) -/

/-- The two writes of a flag instruction with destination VF: the one VF_DEST_ORDER puts last stays. -/
theorem writeFlagged_VF (flag result : Byte) (s : State) :
    OnlyRegs [VF] s (writeFlagged VF flag result s) ∧ (writeFlagged VF flag result s).getV VF =
      (match s.cfg.vfDestOrder with | .flagThenResult => result | .resultThenFlag => flag) := by
  refine ⟨?_, ?_⟩
  · obtain ⟨hregs, hrest⟩ := onlyRegs_writeFlagged VF flag result s
    exact ⟨fun r hr => hregs r (by simpa using hr), hrest⟩
  · rw [writeFlagged_getV]
    split <;> simp_all

/-! ## Frames of the index writes and of RND -/

theorem onlyIndex_setI (s : State) (w : Word) : OnlyIndex s (s.setI w) := by
  simp [OnlyIndex, RegsKept, BytesKept, CoreKept, StackKept, TimersKept, DisplayKept, KeysKept, EnvKept]

/-- R193: five times a byte fits 16 bits. -/
theorem glyphAddr_toNat (b : Byte) : (glyphAddr b).toNat = b.toNat * 5 := by
  have := b.isLt
  rw [glyphAddr, BitVec.toNat_ofNat]; omega

/-! ## The obligations -/

/-- Settles O28: the RET pops the slot the CALL pushed. -/
theorem callThenReturnRoundTrip : Obligations.CallThenReturnRoundTrip := by
  intro s t u nnn k hk hcall hsp hslot
  have hlt : s.sp.val < 16 := by omega
  rw [exec_call_of_lt hlt] at hcall
  cases hcall
  have hdepth : u.sp.val = k.val + 1 := by rw [hsp, ← hk]; rfl
  have hentry : u.getSlot k = s.pc := by rw [hslot, setPc_getSlot, setStack_getSlot, if_pos (Fin.ext hk.symm)]
  exact ⟨_, exec_ret_of_depth hdepth, hentry, Fin.ext hk.symm⟩

/-- Settles O34: each shift is the two writes of the bit shifted out and the shifted value. -/
theorem shiftsLeaveTheBitShiftedOut : Obligations.ShiftsLeaveTheBitShiftedOut := fun s x =>
  ⟨⟨_, rfl, flagWritten_writeFlagged (shrFlag_toNat (s.getV x)) (shrByte_toNat (s.getV x)) x s⟩,
   ⟨_, rfl, flagWritten_writeFlagged (shlFlag_toNat (s.getV x)) (shlByte_toNat (s.getV x)) x s⟩⟩

/-- Settles O35: each of the five is the two writes of its own flag and result. -/
theorem destinationVfFollowsTheOrder : Obligations.DestinationVfFollowsTheOrder := by
  rintro s i flag result (⟨y, rfl, hr, hf⟩ | ⟨y, rfl, rfl, rfl⟩ | ⟨y, rfl, rfl, rfl⟩ | ⟨rfl, hr, rfl⟩ | ⟨rfl, hr, rfl⟩)
  · have hres : result = addByte (s.getV VF) (s.getV y) := BitVec.eq_of_toNat_eq (by rw [addByte_toNat, hr])
    rw [hres, carryFlag_eq_of_toNat hf]
    exact ⟨_, rfl, writeFlagged_VF ..⟩
  · rw [← subByte_eq, ← notBorrowFlag_eq]
    exact ⟨_, rfl, writeFlagged_VF ..⟩
  · rw [← subByte_eq, ← notBorrowFlag_eq]
    exact ⟨_, rfl, writeFlagged_VF ..⟩
  · have hres : result = shrByte (s.getV VF) := BitVec.eq_of_toNat_eq (by rw [shrByte_toNat, hr])
    rw [hres]
    exact ⟨_, rfl, writeFlagged_VF ..⟩
  · have hres : result = shlByte (s.getV VF) := BitVec.eq_of_toNat_eq (by rw [shlByte_toNat, hr])
    rw [hres]
    exact ⟨_, rfl, writeFlagged_VF ..⟩

/-- Settles O36: one write of the masked draw, and one more draw counted. -/
theorem randomIsTheMaskedDraw : Obligations.RandomIsTheMaskedDraw := by
  intro s x kk
  have hexec : exec (.rnd x kk) s = .next ({ s with draws := s.draws + 1 }.setV x (Config.randByte s.draws &&& kk)) := rfl
  refine ⟨_, hexec, setV_getV_same .., ?_, ?_⟩
  · rw [setV_getV_same, BitVec.and_assoc]
    simp
  · obtain ⟨hregs, -⟩ := onlyRegs_setV x (Config.randByte s.draws &&& kk) { s with draws := s.draws + 1 }
    exact ⟨hregs, rfl, rfl, fun _ => rfl, ⟨rfl, fun _ => rfl⟩, ⟨rfl, rfl, rfl⟩, ⟨rfl, fun _ _ => rfl⟩, fun _ => rfl,
      ⟨rfl, rfl⟩, rfl, rfl⟩

/-- Settles O38: each is one write of `I`. -/
theorem indexInstructionsWriteOnlyI : Obligations.IndexInstructionsWriteOnlyI := fun s x nnn =>
  ⟨⟨_, rfl, zext16_toNat nnn, onlyIndex_setI ..⟩, ⟨_, rfl, BitVec.toNat_ofNat .., onlyIndex_setI ..⟩,
   ⟨_, rfl, glyphAddr_toNat (s.getV x), onlyIndex_setI ..⟩⟩

end Sys2Proof.Machine
end

section
/-!
PROOFS. The display's parameters, and DXYN: a whole draw, a draw that raises, and a draw repeated (spec/44_display.md R214-R218).
-/

namespace Sys2Proof.Machine

/-! ## A whole draw (R214) -/

theorem exec_drw_done {s t : State} {x y : Reg} {n : Nat}
    (h : Body.forEach (drawRow (s.getV x).toNat (s.getV y).toNat) (List.range n) (s.setV VF 0) = .done t) :
    exec (.drw x y n) s = .next (t.setRedraw true) := by
  simp only [exec, execDrw, h, andThen_done, outcome_done]

theorem exec_drw_raised {s t : State} {x y : Reg} {n : Nat} {f : Fault}
    (h : Body.forEach (drawRow (s.getV x).toNat (s.getV y).toNat) (List.range n) (s.setV VF 0) = .raised f t) :
    exec (.drw x y n) s = .next (takeFault f t) := by
  simp only [exec, execDrw, h, andThen_raised, outcome_raised]

/-- A draw whose rows are all drawable completes with every cell composed. -/
theorem exec_drw_composes {s : State} {x y : Reg} {n : Nat} (hn : n ≤ 15)
    (h : ∀ k < n, RowDrawable s (s.getV x).toNat (s.getV y).toNat k) :
    ∃ t, exec (.drw x y n) s = .next t ∧ t.redraw = true ∧ t.fault = s.fault ∧ DrawFrame s t ∧
      SpriteComposed (s.getV x).toNat (s.getV y).toNat (fun k j => k < n ∧ j < 8) s t := by
  obtain ⟨t, ht, hc⟩ := rows_done n (by omega) h
  obtain ⟨hframe, hfault, -⟩ := composing_frame hc
  obtain ⟨-, -, hcomposed⟩ := hc
  exact ⟨_, exec_drw_done ht, rfl, hfault, hframe, hcomposed⟩

/-- A draw that raises in row `k` ends with the fault taken and the cells composed that were composed at the raise. -/
theorem exec_drw_raises {s : State} {x y : Reg} {n k : Nat} {f : Fault} {cells : Nat → Nat → Prop} (hn : n ≤ 15)
    (hk : k < n) (h : ∀ i < k, RowDrawable s (s.getV x).toNat (s.getV y).toNat i)
    (hrow : ∀ u, Composing (s.getV x).toNat (s.getV y).toNat (fun i c => i < k ∧ c < 8) s u →
      ∃ t, drawRow (s.getV x).toNat (s.getV y).toNat k u = .raised f t ∧
        Composing (s.getV x).toNat (s.getV y).toNat cells s t) :
    ∃ t, exec (.drw x y n) s = .next t ∧ Raised f t ∧ t.redraw = s.redraw ∧ DrawFrame s t ∧
      SpriteComposed (s.getV x).toNat (s.getV y).toNat cells s t := by
  obtain ⟨t, ht, hc⟩ := rows_raised (by omega) hk h hrow
  obtain ⟨hframe, -, hredraw⟩ := composing_frame hc
  obtain ⟨-, -, hcomposed⟩ := hc
  exact ⟨_, exec_drw_raised ht, raised_takeFault f t, hredraw, hframe, hcomposed⟩

/-! ## A row that raises (R214, R217, R263) -/

/-- A row that cannot be read raises with nothing of it drawn. -/
theorem drawRow_unreadable {cx cy k : Nat} {s u : State} {f : Fault} {cells : Nat → Nat → Prop}
    (hu : Composing cx cy cells s u) (hf : memRead (effAddr s k) s = .error f) : drawRow cx cy k u = .raised f u := by
  obtain ⟨hbase, -⟩ := hu
  simp only [drawRow, memRead_drawBase hbase, hf]

theorem drawRow_readable {cx cy k : Nat} {s u : State} {b : Byte} {cells : Nat → Nat → Prop}
    (hu : Composing cx cy cells s u) (hb : memRead (effAddr s k) s = .ok b) :
    drawRow cx cy k u = Body.forEach (drawColumn cx (cy + k) b) (List.range 8) u := by
  obtain ⟨hbase, -⟩ := hu
  simp only [drawRow, memRead_drawBase hbase, hb]

/-! ## A draw repeated at one place -/

/-- What a draw from `s` leaves unchanged of what a draw reads: the coordinates, the rows' bytes and the targets. -/
structure SameSprite (s t : State) : Prop where
  cfg  : t.cfg = s.cfg
  read : ∀ k, memRead (effAddr t k) t = memRead (effAddr s k) s

theorem DrawFrame.sameSprite {s t : State} (h : DrawFrame s t) : SameSprite s t := by
  obtain ⟨-, hi, -, hbytes, -, -, -, -, hcfg, -⟩ := h
  exact ⟨hcfg, fun k => by rw [memRead_congr hcfg hbytes, effAddr, effAddr, hi]⟩

theorem SameSprite.rowDrawable {cx cy k : Nat} {s t : State} (h : SameSprite s t) (hr : RowDrawable s cx cy k) :
    RowDrawable t cx cy k := by
  rw [RowDrawable, h.read, h.cfg]; exact hr

theorem SameSprite.spriteCell {cx cy k j : Nat} {s t : State} {px : Fin 64} {py : Fin 32} {bit : Bool}
    (h : SameSprite s t) (hs : SpriteCell s cx cy k j px py bit) : SpriteCell t cx cy k j px py bit := by
  rw [SpriteCell, h.read, h.cfg]; exact hs

/-- A drawable row's cell with a target is a cell of the sprite. -/
theorem spriteCell_of_target {cx cy k j : Nat} {s : State} {px : Fin 64} {py : Fin 32} (hr : RowDrawable s cx cy k)
    (ht : target s.cfg (cx + j) (cy + k) = .ok (some (px, py))) : ∃ bit, SpriteCell s cx cy k j px py bit := by
  obtain ⟨⟨b, hb⟩, -⟩ := hr
  exact ⟨_, ht, b, hb, rfl⟩

/-- XOR with the same sprite twice restores every pixel. -/
theorem composed_twice_getPixel {cx cy n : Nat} {s t u : State} (hsame : SameSprite s t)
    (hrows : ∀ k < n, RowDrawable s cx cy k) (h : SpriteComposed cx cy (fun k j => k < n ∧ j < 8) s t)
    (g : SpriteComposed cx cy (fun k j => k < n ∧ j < 8) t u) (px : Fin 64) (py : Fin 32) :
    u.getPixel px py = s.getPixel px py := by
  obtain ⟨hon, hoff, -, -⟩ := h
  obtain ⟨gon, goff, -, -⟩ := g
  by_cases hcell : ∃ k j, (k < n ∧ j < 8) ∧ target s.cfg (cx + j) (cy + k) = .ok (some (px, py))
  · obtain ⟨k, j, hkj, ht⟩ := hcell
    obtain ⟨bit, hs⟩ := spriteCell_of_target (hrows k hkj.1) ht
    rw [gon k j px py bit hkj (hsame.spriteCell hs), hon k j px py bit hkj hs, Bool.xor_assoc, Bool.xor_self,
      Bool.xor_false]
  · have hmiss : ∀ k j, k < n ∧ j < 8 → target s.cfg (cx + j) (cy + k) ≠ .ok (some (px, py)) :=
      fun k j hkj ht => hcell ⟨k, j, hkj, ht⟩
    rw [goff px py (by rw [hsame.cfg]; exact hmiss), hoff px py hmiss]

/-- Under either rule a lit pixel under a lit sprite bit collides (R218). -/
theorem collides_lit (c : Config) : collides c true true = true := by
  unfold collides; split <;> rfl

/-- A lit bit over a pixel that was off lights it, and the second draw finds it lit. -/
theorem composed_twice_collides {cx cy : Nat} {cells : Nat → Nat → Prop} {s t u : State} (hsame : SameSprite s t)
    (h : SpriteComposed cx cy cells s t) (g : SpriteComposed cx cy cells t u) {k j : Nat} {px : Fin 64} {py : Fin 32}
    (hkj : cells k j) (hs : SpriteCell s cx cy k j px py true) (hoff : s.getPixel px py = false) : u.getV VF = 1 := by
  obtain ⟨hon, -, -, -⟩ := h
  obtain ⟨-, -, gcoll, -⟩ := g
  have hlit : t.getPixel px py = true := by rw [hon k j px py true hkj hs, hoff]; rfl
  exact gcoll ⟨k, j, px, py, true, hkj, hsame.spriteCell hs, by rw [hlit]; exact collides_lit t.cfg⟩

/-! ## The obligations -/

/-- Settles O43: each clause is one branch of `target`. -/
theorem targetFollowsTheOffscreenPolicy : Obligations.TargetFollowsTheOffscreenPolicy := by
  intro c px py
  refine ⟨?_, fun hout => ?_⟩
  · rintro qx qy rfl rfl
    rw [target, dif_pos ⟨qx.isLt, qy.isLt⟩]
  · have hgrid : ¬(px < 64 ∧ py < 32) := by omega
    refine ⟨fun hp => ?_, fun hp => ?_, fun hp qx qy hx hy => ?_⟩
    · simp only [target, dif_neg hgrid, hp]
    · simp only [target, dif_neg hgrid, hp]
    · simp only [target, dif_neg hgrid, hp, ← hx, ← hy]

/-- Settles O44: `collides` under each rule. -/
theorem collisionFollowsTheRule : Obligations.CollisionFollowsTheRule := fun c p b =>
  ⟨fun h => by simp only [collides, h], fun h => by simp only [collides, h, Bool.and_eq_true]⟩

/-- Settles O45: bit `m` of a number is its quotient by `2 ^ m`, modulo 2. -/
theorem spriteColumnsRunFromBitSeven : Obligations.SpriteColumnsRunFromBitSeven := fun b j _ => by
  rw [spriteBit, BitVec.getLsbD, Nat.testBit_eq_decide_div_mod_eq, decide_eq_true_eq]

/-- Settles O46: the rows compose one after another, and `redraw` is set after the last. -/
theorem drawComposesTheSprite : Obligations.DrawComposesTheSprite := fun _ _ _ _ hn h => exec_drw_composes hn h

/-- Settles O47: row `k` raises at its byte, or at the first column with no target. -/
theorem drawFaultKeepsWhatWasDrawn : Obligations.DrawFaultKeepsWhatWasDrawn := by
  intro s x y n k hn hk hrows
  refine ⟨fun f hf => ?_, fun b j f hb hj hcols hf => ?_⟩
  · exact exec_drw_raises hn hk hrows fun u hu => ⟨u, drawRow_unreadable hu hf, hu⟩
  · refine exec_drw_raises hn hk hrows fun u hu => ?_
    rw [drawRow_readable hu hb]
    exact columns_raised hk (by omega) hu hb hj hcols hf

/-- Settles O48: the first draw leaves what the second reads, so the second XORs the same sprite onto the same pixels. -/
theorem drawingTwiceRestoresTheScreen : Obligations.DrawingTwiceRestoresTheScreen := by
  intro s t x y n hn hx hy hrows hexec
  obtain ⟨t', ht', -, -, hframe, hfirst⟩ := exec_drw_composes hn hrows
  rw [hexec] at ht'
  cases ht'
  have hsame := hframe.sameSprite
  obtain ⟨hregs, -⟩ := hframe
  have hvx : t.getV x = s.getV x := hregs x (by simpa using hx)
  have hvy : t.getV y = s.getV y := hregs y (by simpa using hy)
  have hrows' : ∀ k < n, RowDrawable t (t.getV x).toNat (t.getV y).toNat k := by
    rw [hvx, hvy]
    exact fun k hk => hsame.rowDrawable (hrows k hk)
  obtain ⟨u, hu, -, -, -, hsecond⟩ := exec_drw_composes hn hrows'
  rw [hvx, hvy] at hsecond
  refine ⟨u, hu, composed_twice_getPixel hsame hrows hfirst hsecond, ?_⟩
  rintro ⟨k, j, px, py, hk, hj, hs, hoff⟩
  exact composed_twice_collides hsame hfirst hsecond ⟨hk, hj⟩ hs hoff

end Sys2Proof.Machine
end
